-- ==== Sys2Proof/Word.lean ====
section
/-! DEFINITION. The widths of tp-1-acso CORE (spec/00_scope.md rule R5 and its glossary): nothing but the
names of the bit-vector types. Fields, sign extension and byte order are in Decode.lean and Machine/. -/

namespace Sys2Proof

/-- 8 bits: one byte of the store (glossary, "Byte"). -/
abbrev Byte := BitVec 8

/-- 16 bits (glossary, "Halfword"). -/
abbrev Halfword := BitVec 16

/-- 32 bits: an instruction and the unit of `read_word` and `write_word` (R5: ILEN, MEM_WORD). -/
abbrev Word := BitVec 32

/-- 64 bits: the contents of a general register (R5: XLEN). -/
abbrev Doubleword := BitVec 64

/-- 64 bits: a byte address, the program counter included (R5: ALEN). -/
abbrev Addr := BitVec 64

/-- 5 bits: a register number, 0 to 31 (R71). -/
abbrev RegIdx := BitVec 5

/-- The register number the hardware hard-wires to zero (R5: ZERO_REG, R11). -/
abbrev zeroReg : RegIdx := 31#5

end Sys2Proof
end

