-- ==== Sys2Proof/Config.lean ====
section
/-! DEFINITION. Two of the parameters that spec/00_scope.md rule R6 leaves open: what BR_RN_LSB can be, and the
RESET_PC of this machine. The five of them together, the step under any choice of them, and this machine's choice
are `Parameters`, `stepWith` and `Parameters.default` (Machine/Parameters.lean, Machine/Cycle.lean). No value of this hardware is undefined while the machine goes on, so there is no free value
(NOTES.md, log entry 14). -/

namespace Sys2Proof

/-- The parameter BR_RN_LSB of R6: the least significant bit of BR's register field, 0 or 5. -/
inductive BrRnLsb where
  /-- The register is bits[4:0]: the source's reading and the default (R85, 90_conflicts.md C2). -/
  | bit0
  /-- The register is bits[9:5]: the A64 layout. -/
  | bit5
  deriving DecidableEq, Repr

namespace Config

/-- RESET_PC of R6, R30 and R221. DESIGN CHOICE, unsafe (log entry 2): the spec leaves it OPEN, a multiple of
4 and nothing more; `State.resetAt` takes it as an argument. -/
def resetPc : Addr := 0

end Config
end Sys2Proof
end

