-- ==== Sys2Proof/Syntax.lean ====
section
/-! DEFINITION. The instructions: one constructor per row of spec/opcode_table.json (34 rows, in the order of
spec/30_encoding.md rule R71), the 35 kinds of R71 and the record R71 calls a Decoded Instruction.

A constructor carries the operand fields that its kind's extractor reads (R80 to R86), at their encoded width:
`shift` of the immediate forms is the 2-bit shift code, `imm12`, `imm16`, `imm9`, `imm19` and `imm26` are the
unscaled fields; `shift` of LSL_IMM and LSR_IMM is the effective count, 0 to 63 (R83). The sign-extended and
scaled values are in Machine/Operands.lean. Fields no extractor reads (the MOVZ half-word selector, the HLT
immediate, the spare bits of BR, bits[15:10] of LSL_IMM) are not kept, as R71, R86 and D17 say. -/

namespace Sys2Proof

/-- The 34 executable kinds with their operands. UNRECOGNIZED, the 35th kind of R71, is not an instruction of
the table: the decoder answers it by refusing the word (`Unrecognized`), and the step gives it R192's meaning. -/
inductive Instr where
  /-- ADD_IMM, R111. -/
  | addImm (rd rn : RegIdx) (shift : BitVec 2) (imm12 : BitVec 12)
  /-- ADDS_IMM, R112. -/
  | addsImm (rd rn : RegIdx) (shift : BitVec 2) (imm12 : BitVec 12)
  /-- SUB_IMM, R113. -/
  | subImm (rd rn : RegIdx) (shift : BitVec 2) (imm12 : BitVec 12)
  /-- SUBS_IMM, R114. -/
  | subsImm (rd rn : RegIdx) (shift : BitVec 2) (imm12 : BitVec 12)
  /-- CMP_IMM, R115; its `rd` is 31 by the table match. -/
  | cmpImm (rn : RegIdx) (shift : BitVec 2) (imm12 : BitVec 12)
  /-- ADD_REG, R121. -/
  | addReg (rd rn rm : RegIdx)
  /-- ADDS_REG, R122. -/
  | addsReg (rd rn rm : RegIdx)
  /-- SUB_REG, R123. -/
  | subReg (rd rn rm : RegIdx)
  /-- SUBS_REG, R124. -/
  | subsReg (rd rn rm : RegIdx)
  /-- CMP_REG, R125; its `rd` is 31 by the table match. -/
  | cmpReg (rn rm : RegIdx)
  /-- ANDS_REG, R126. -/
  | andsReg (rd rn rm : RegIdx)
  /-- EOR_REG, R127. -/
  | eorReg (rd rn rm : RegIdx)
  /-- ORR_REG, R128. -/
  | orrReg (rd rn rm : RegIdx)
  /-- MUL, R129. -/
  | mul (rd rn rm : RegIdx)
  /-- MOVZ, R140. -/
  | movz (rd : RegIdx) (imm16 : BitVec 16)
  /-- LSL_IMM, R145. -/
  | lslImm (rd rn : RegIdx) (shift : BitVec 6)
  /-- LSR_IMM, R146. -/
  | lsrImm (rd rn : RegIdx) (shift : BitVec 6)
  /-- STUR, R151. `rd` is the data register (R71), `rn` the base. -/
  | stur (rd rn : RegIdx) (imm9 : BitVec 9)
  /-- STURB, R152. -/
  | sturb (rd rn : RegIdx) (imm9 : BitVec 9)
  /-- STURH, R153. -/
  | sturh (rd rn : RegIdx) (imm9 : BitVec 9)
  /-- LDUR, R154. -/
  | ldur (rd rn : RegIdx) (imm9 : BitVec 9)
  /-- LDURB, R155. -/
  | ldurb (rd rn : RegIdx) (imm9 : BitVec 9)
  /-- LDURH, R156. -/
  | ldurh (rd rn : RegIdx) (imm9 : BitVec 9)
  /-- B, R171. -/
  | b (imm26 : BitVec 26)
  /-- BR, R172. -/
  | br (rn : RegIdx)
  /-- CBZ, R173; `rt` is kept in the record's `rd`. -/
  | cbz (rt : RegIdx) (imm19 : BitVec 19)
  /-- CBNZ, R174; `rt` is kept in the record's `rd`. -/
  | cbnz (rt : RegIdx) (imm19 : BitVec 19)
  /-- B_EQ, R175. -/
  | bEq (imm19 : BitVec 19)
  /-- B_NE, R176. -/
  | bNe (imm19 : BitVec 19)
  /-- B_GE, R177. -/
  | bGe (imm19 : BitVec 19)
  /-- B_LT, R178. -/
  | bLt (imm19 : BitVec 19)
  /-- B_GT, R179. -/
  | bGt (imm19 : BitVec 19)
  /-- B_LE, R180. -/
  | bLe (imm19 : BitVec 19)
  /-- HLT, R190. -/
  | hlt
  deriving DecidableEq, Repr

/-- The operation tag of R71: 34 executable kinds and the sentinel. -/
inductive Kind where
  | addImm | addsImm | subImm | subsImm | cmpImm
  | addReg | addsReg | subReg | subsReg | cmpReg | andsReg | eorReg | orrReg | mul
  | movz | lslImm | lsrImm
  | stur | sturb | sturh | ldur | ldurb | ldurh
  | b | br | cbz | cbnz | bEq | bNe | bGe | bLt | bGt | bLe
  | hlt | unrecognized
  deriving DecidableEq, Repr

/-- A Decoded Instruction as R71 lists its fields. A field the kind's extractor does not set is 0 (R88). -/
structure DecodedInstruction where
  /-- The operation tag. -/
  kind : Kind
  /-- Destination, data or tested register. -/
  rd : RegIdx := 0
  /-- First source, base or target register. -/
  rn : RegIdx := 0
  /-- Second source register. -/
  rm : RegIdx := 0
  /-- Signed 64 bits, "already sign-extended and scaled as required by its encoding". -/
  immediate : Doubleword := 0
  /-- The 2-bit shift code of the immediate forms, the effective count of the shifts. -/
  shift : BitVec 6 := 0
  deriving DecidableEq, Repr

end Sys2Proof
end

