-- ==== Sys2Proof/WellFormed.lean ====
section
/-! DEFINITION. Which instruction terms are the decoding of some word. Every field has its encoded width, so
the only check left is the one that the order of the table makes (spec/30_encoding.md rules R75 and R77): a
subtract-with-flags word whose destination is register 31 is a compare. -/

namespace Sys2Proof

/-- A destination a SUBS kind can have: any register but 31, whose words the compare rows take first (R77,
R114, R124). -/
def subsDestination (rd : RegIdx) : Bool := rd != zeroReg

/-- The instruction is some word's decoding. -/
def Instr.wellFormed : Instr → Bool
  | .addImm _ _ _ _ => true
  | .addsImm _ _ _ _ => true
  | .subImm _ _ _ _ => true
  | .subsImm rd _ _ _ => subsDestination rd
  | .cmpImm _ _ _ => true
  | .addReg _ _ _ => true
  | .addsReg _ _ _ => true
  | .subReg _ _ _ => true
  | .subsReg rd _ _ => subsDestination rd
  | .cmpReg _ _ => true
  | .andsReg _ _ _ => true
  | .eorReg _ _ _ => true
  | .orrReg _ _ _ => true
  | .mul _ _ _ => true
  | .movz _ _ => true
  | .lslImm _ _ _ => true
  | .lsrImm _ _ _ => true
  | .stur _ _ _ => true
  | .sturb _ _ _ => true
  | .sturh _ _ _ => true
  | .ldur _ _ _ => true
  | .ldurb _ _ _ => true
  | .ldurh _ _ _ => true
  | .b _ => true
  | .br _ => true
  | .cbz _ _ => true
  | .cbnz _ _ => true
  | .bEq _ => true
  | .bNe _ => true
  | .bGe _ => true
  | .bLt _ => true
  | .bGt _ => true
  | .bLe _ => true
  | .hlt => true

end Sys2Proof
end

