-- ==== Sys2Proof/Decode.lean ====
section
/-! DEFINITION. The decoder of spec/30_encoding.md: the ordered table of R76 and the first-match rule R74, the
six field extractors R80 to R85, HLT without one (R86), the condition resolver R87 and the 34 rows of
spec/opcode_table.json; then the encoder, written from the encoding column of R94 (not from the table's masks).

Two forms of the decoder's answer are given: `decode`, an `Instr` or the rejection R90 names, which the machine
runs; and `decodeRecord`, the record of R71 field by field, which is the interface R28 shows the run loop. -/

namespace Sys2Proof

/-! ### The table -/

/-- The `kind` column of R76: the 34 executable kinds with the six conditional branches as one tag. -/
inductive TableTag where
  | cmpReg | br | mul | addReg | addsReg | subReg | subsReg | andsReg | eorReg | orrReg
  | hlt | lsrImm | cmpImm | sturb | ldurb | sturh | ldurh | stur | ldur | lslImm | movz
  | bCond | addImm | addsImm | subImm | subsImm | cbz | cbnz | b
  deriving DecidableEq, Repr

/-- One entry `(mask, expected, kind)` of the matcher's list (R74). -/
structure TableRow where
  mask : Word
  expected : Word
  tag : TableTag
  deriving DecidableEq, Repr

/-- The test of R74: `(word & mask) == expected`. -/
def TableRow.matchesWord (row : TableRow) (w : Word) : Bool := (w &&& row.mask) == row.expected

/-- The value of BR_RN_LSB this machine has: the default of R6, the source's literal (R85, 90_conflicts.md C2,
decision D18, log entry 5). -/
def brRnLsb : BrRnLsb := .bit0

/-- The BR row of R76 for each value of BR_RN_LSB. -/
def brRow : BrRnLsb → TableRow
  | .bit0 => ⟨0xFFFFFC00, 0xD61F0000, .br⟩
  | .bit5 => ⟨0xFFFFFC1F, 0xD61F0000, .br⟩

/-- Row 1 of R76. -/
def cmpRegRow : TableRow := ⟨0xFFE0FC1F, 0xEB00001F, .cmpReg⟩

/-- Rows 3 to 29 of R76, in order. -/
def tableRest : List TableRow :=
  [ ⟨0xFFE0FC00, 0x9B007C00, .mul⟩,
    ⟨0xFFE0FC00, 0x8B000000, .addReg⟩,
    ⟨0xFFE0FC00, 0xAB000000, .addsReg⟩,
    ⟨0xFFE0FC00, 0xCB000000, .subReg⟩,
    ⟨0xFFE0FC00, 0xEB000000, .subsReg⟩,
    ⟨0xFFE0FC00, 0xEA000000, .andsReg⟩,
    ⟨0xFFE0FC00, 0xCA000000, .eorReg⟩,
    ⟨0xFFE0FC00, 0xAA000000, .orrReg⟩,
    ⟨0xFFE0001F, 0xD4400000, .hlt⟩,
    ⟨0xFFC0FC00, 0xD340FC00, .lsrImm⟩,
    ⟨0xFF00001F, 0xF100001F, .cmpImm⟩,
    ⟨0xFFE00C00, 0x38000000, .sturb⟩,
    ⟨0xFFE00C00, 0x38400000, .ldurb⟩,
    ⟨0xFFE00C00, 0x78000000, .sturh⟩,
    ⟨0xFFE00C00, 0x78400000, .ldurh⟩,
    ⟨0xFFE00C00, 0xF8000000, .stur⟩,
    ⟨0xFFE00C00, 0xF8400000, .ldur⟩,
    ⟨0xFFC00000, 0xD3400000, .lslImm⟩,
    ⟨0xFF800000, 0xD2800000, .movz⟩,
    ⟨0xFF000010, 0x54000000, .bCond⟩,
    ⟨0xFF000000, 0x91000000, .addImm⟩,
    ⟨0xFF000000, 0xB1000000, .addsImm⟩,
    ⟨0xFF000000, 0xD1000000, .subImm⟩,
    ⟨0xFF000000, 0xF1000000, .subsImm⟩,
    ⟨0xFF000000, 0xB4000000, .cbz⟩,
    ⟨0xFF000000, 0xB5000000, .cbnz⟩,
    ⟨0xFC000000, 0x14000000, .b⟩ ]

/-- The default DECODE_TABLE of R76: 29 entries in order. With BR_RN_LSB = 5 the BR row moves to the head. -/
def decodeTable : BrRnLsb → List TableRow
  | .bit0 => cmpRegRow :: brRow .bit0 :: tableRest
  | .bit5 => brRow .bit5 :: cmpRegRow :: tableRest

/-- R74: the tag of the FIRST entry that matches; `none` is "No match ⇒ unrecognized". -/
def lookupTag : List TableRow → Word → Option TableTag
  | [], _ => none
  | row :: rest, w => if row.matchesWord w then some row.tag else lookupTag rest w

/-- The `fixed` column of R76: the number of 1 bits in a mask. -/
def fixedBits (mask : Word) : Nat := (List.range 32).countP mask.getLsbD

/-- Some word matches both rows: neither expects a bit outside its mask, and they agree on the bits both fix. -/
def rowsOverlap (row other : TableRow) : Bool :=
  row.expected &&& ~~~row.mask == 0 && other.expected &&& ~~~other.mask == 0 &&
    (row.expected ^^^ other.expected) &&& (row.mask &&& other.mask) == 0

/-- The constraint on DECODE_TABLE: of two rows that overlap, the one with more fixed bits stands first (R75,
92_eei_decisions.md, "more specific rows first where rows overlap"). -/
def tableOrdered : List TableRow → Bool
  | [] => true
  | row :: rest =>
    rest.all (fun later => !rowsOverlap row later || decide (fixedBits later.mask < fixedBits row.mask)) &&
      tableOrdered rest

/-! ### The field extractors -/

/-- `w[4:0]`: `rd`, `rt`, and BR's `rn` when BR_RN_LSB = 0. -/
def fieldRd (w : Word) : RegIdx := w.extractLsb' 0 5

/-- `w[9:5]`: `rn`. -/
def fieldRn (w : Word) : RegIdx := w.extractLsb' 5 5

/-- `w[20:16]`: `rm` (R81). -/
def fieldRm (w : Word) : RegIdx := w.extractLsb' 16 5

/-- `w[23:22]`: the shift code of the immediate forms (R80). -/
def fieldShiftCode (w : Word) : BitVec 2 := w.extractLsb' 22 2

/-- `w[21:10]` (R80). -/
def fieldImm12 (w : Word) : BitVec 12 := w.extractLsb' 10 12

/-- `w[20:5]` (R82). -/
def fieldImm16 (w : Word) : BitVec 16 := w.extractLsb' 5 16

/-- `w[21:16]`: the rotate field (R83). -/
def fieldRotate (w : Word) : BitVec 6 := w.extractLsb' 16 6

/-- `w[20:12]` (R84). -/
def fieldImm9 (w : Word) : BitVec 9 := w.extractLsb' 12 9

/-- `w[23:5]` (R85). -/
def fieldImm19 (w : Word) : BitVec 19 := w.extractLsb' 5 19

/-- `w[25:0]` (R85). -/
def fieldImm26 (w : Word) : BitVec 26 := w.extractLsb' 0 26

/-- `w[3:0]`: the condition code (R85, R87). -/
def fieldCond (w : Word) : BitVec 4 := w.extractLsb' 0 4

/-- The target register of BR: `w[BR_RN_LSB+4 : BR_RN_LSB]` (R85). -/
def fieldBrRn : BrRnLsb → Word → RegIdx
  | .bit0, w => w.extractLsb' 0 5
  | .bit5, w => w.extractLsb' 5 5

/-- R83: the left-shift count of a rotate field, `(64 - rotate) mod 64`; R94 writes the rotate field of a count
by the same formula. -/
def leftShiftCount (rotate : BitVec 6) : BitVec 6 := BitVec.ofNat 6 ((64 - rotate.toNat) % 64)

/-! ### The decoder -/

/-- Why a word is UNRECOGNIZED: the two causes R90 names. Either way the step is R192's no-op. -/
inductive Unrecognized where
  /-- "decode cannot match any table entry" (R74, R90). -/
  | noTableEntry
  /-- "a conditional-branch code is outside the six supported values" (R87, R90). -/
  | unsupportedCondition
  deriving DecidableEq, Repr

/-- The condition resolver of R87: one of six kinds, or the rejection. -/
def resolveCondition (cond : BitVec 4) (imm19 : BitVec 19) : Except Unrecognized Instr :=
  if cond = 0x0 then .ok (.bEq imm19)
  else if cond = 0x1 then .ok (.bNe imm19)
  else if cond = 0xA then .ok (.bGe imm19)
  else if cond = 0xB then .ok (.bLt imm19)
  else if cond = 0xC then .ok (.bGt imm19)
  else if cond = 0xD then .ok (.bLe imm19)
  else .error .unsupportedCondition

/-- The instruction an entry's extractor makes of a word (R80 to R87). -/
def extractInstr (lsb : BrRnLsb) (tag : TableTag) (w : Word) : Except Unrecognized Instr :=
  match tag with
  | .cmpReg => .ok (.cmpReg (fieldRn w) (fieldRm w))
  | .br => .ok (.br (fieldBrRn lsb w))
  | .mul => .ok (.mul (fieldRd w) (fieldRn w) (fieldRm w))
  | .addReg => .ok (.addReg (fieldRd w) (fieldRn w) (fieldRm w))
  | .addsReg => .ok (.addsReg (fieldRd w) (fieldRn w) (fieldRm w))
  | .subReg => .ok (.subReg (fieldRd w) (fieldRn w) (fieldRm w))
  | .subsReg => .ok (.subsReg (fieldRd w) (fieldRn w) (fieldRm w))
  | .andsReg => .ok (.andsReg (fieldRd w) (fieldRn w) (fieldRm w))
  | .eorReg => .ok (.eorReg (fieldRd w) (fieldRn w) (fieldRm w))
  | .orrReg => .ok (.orrReg (fieldRd w) (fieldRn w) (fieldRm w))
  | .hlt => .ok .hlt
  | .lsrImm => .ok (.lsrImm (fieldRd w) (fieldRn w) (fieldRotate w))
  | .cmpImm => .ok (.cmpImm (fieldRn w) (fieldShiftCode w) (fieldImm12 w))
  | .sturb => .ok (.sturb (fieldRd w) (fieldRn w) (fieldImm9 w))
  | .ldurb => .ok (.ldurb (fieldRd w) (fieldRn w) (fieldImm9 w))
  | .sturh => .ok (.sturh (fieldRd w) (fieldRn w) (fieldImm9 w))
  | .ldurh => .ok (.ldurh (fieldRd w) (fieldRn w) (fieldImm9 w))
  | .stur => .ok (.stur (fieldRd w) (fieldRn w) (fieldImm9 w))
  | .ldur => .ok (.ldur (fieldRd w) (fieldRn w) (fieldImm9 w))
  | .lslImm => .ok (.lslImm (fieldRd w) (fieldRn w) (leftShiftCount (fieldRotate w)))
  | .movz => .ok (.movz (fieldRd w) (fieldImm16 w))
  | .bCond => resolveCondition (fieldCond w) (fieldImm19 w)
  | .addImm => .ok (.addImm (fieldRd w) (fieldRn w) (fieldShiftCode w) (fieldImm12 w))
  | .addsImm => .ok (.addsImm (fieldRd w) (fieldRn w) (fieldShiftCode w) (fieldImm12 w))
  | .subImm => .ok (.subImm (fieldRd w) (fieldRn w) (fieldShiftCode w) (fieldImm12 w))
  | .subsImm => .ok (.subsImm (fieldRd w) (fieldRn w) (fieldShiftCode w) (fieldImm12 w))
  | .cbz => .ok (.cbz (fieldRd w) (fieldImm19 w))
  | .cbnz => .ok (.cbnz (fieldRd w) (fieldImm19 w))
  | .b => .ok (.b (fieldImm26 w))

/-- R74 over any DECODE_TABLE (R6): when the B.cond entry's resolver rejects, later entries are not tried. -/
def decodeIn (table : List TableRow) (lsb : BrRnLsb) (w : Word) : Except Unrecognized Instr :=
  match lookupTag table w with
  | none => .error .noTableEntry
  | some tag => extractInstr lsb tag w

/-- The decoder over the default table, for either value of BR_RN_LSB. -/
def decodeWith (lsb : BrRnLsb) (w : Word) : Except Unrecognized Instr :=
  decodeIn (decodeTable lsb) lsb w

/-- This machine's decoder: a total function of the 32-bit word alone (R70, R72, R73). -/
def decode (w : Word) : Except Unrecognized Instr := decodeWith brRnLsb w

/-! ### The decoded record of R71 -/

/-- R80: "if the shift code equals 1, the immediate is logically shifted left by 12"; 0, 2 and 3 do not shift. -/
def arithImmediate (shift : BitVec 2) (imm12 : BitVec 12) : Doubleword :=
  if shift = 1 then imm12.setWidth 64 <<< 12 else imm12.setWidth 64

/-- R82: `zext(w[20:5])`. -/
def movzImmediate (imm16 : BitVec 16) : Doubleword := imm16.setWidth 64

/-- R84: `sext_9(w[20:12])`, a byte offset. -/
def memOffset (imm9 : BitVec 9) : Doubleword := imm9.signExtend 64

/-- R85: `sext_19(w[23:5]) * 4`. -/
def scaledOffset19 (imm19 : BitVec 19) : Doubleword := imm19.signExtend 64 * 4

/-- R85: `sext_26(w[25:0]) * 4`. -/
def scaledOffset26 (imm26 : BitVec 26) : Doubleword := imm26.signExtend 64 * 4

/-- The UNRECOGNIZED record: every field but `kind` is 0 (R88). -/
def unrecognizedRecord : DecodedInstruction := { kind := .unrecognized }

/-- Extractor 1 (R80). -/
def extractArithImm (kind : Kind) (w : Word) : DecodedInstruction :=
  { kind := kind, rd := fieldRd w, rn := fieldRn w, shift := (fieldShiftCode w).setWidth 6,
    immediate := arithImmediate (fieldShiftCode w) (fieldImm12 w) }

/-- Extractor 2 (R81). -/
def extractRegister (kind : Kind) (w : Word) : DecodedInstruction :=
  { kind := kind, rd := fieldRd w, rn := fieldRn w, rm := fieldRm w }

/-- Extractor 3 (R82). -/
def extractMoveWide (kind : Kind) (w : Word) : DecodedInstruction :=
  { kind := kind, rd := fieldRd w, immediate := movzImmediate (fieldImm16 w) }

/-- Extractor 4 (R83) with the count its kind makes of the rotate field. -/
def extractShift (kind : Kind) (count : BitVec 6) (w : Word) : DecodedInstruction :=
  { kind := kind, rd := fieldRd w, rn := fieldRn w, shift := count }

/-- Extractor 5 (R84). -/
def extractMemory (kind : Kind) (w : Word) : DecodedInstruction :=
  { kind := kind, rd := fieldRd w, rn := fieldRn w, immediate := memOffset (fieldImm9 w) }

/-- Extractor 6 (R85) for CBZ and CBNZ. -/
def extractCompareBranch (kind : Kind) (w : Word) : DecodedInstruction :=
  { kind := kind, rd := fieldRd w, immediate := scaledOffset19 (fieldImm19 w) }

/-- The kind R87's table gives a condition code. -/
def conditionKind (cond : BitVec 4) : Kind :=
  if cond = 0x0 then .bEq
  else if cond = 0x1 then .bNe
  else if cond = 0xA then .bGe
  else if cond = 0xB then .bLt
  else if cond = 0xC then .bGt
  else if cond = 0xD then .bLe
  else .unrecognized

/-- R87: on success `{kind, immediate}`; on failure the UNRECOGNIZED record, the offset dropped. -/
def extractConditional (w : Word) : DecodedInstruction :=
  if conditionKind (fieldCond w) = .unrecognized then unrecognizedRecord
  else { kind := conditionKind (fieldCond w), immediate := scaledOffset19 (fieldImm19 w) }

/-- The record an entry's extractor makes of a word (R80 to R88). -/
def extractRecord (lsb : BrRnLsb) (tag : TableTag) (w : Word) : DecodedInstruction :=
  match tag with
  | .cmpReg => extractRegister .cmpReg w
  | .br => { kind := .br, rn := fieldBrRn lsb w }
  | .mul => extractRegister .mul w
  | .addReg => extractRegister .addReg w
  | .addsReg => extractRegister .addsReg w
  | .subReg => extractRegister .subReg w
  | .subsReg => extractRegister .subsReg w
  | .andsReg => extractRegister .andsReg w
  | .eorReg => extractRegister .eorReg w
  | .orrReg => extractRegister .orrReg w
  | .hlt => { kind := .hlt }
  | .lsrImm => extractShift .lsrImm (fieldRotate w) w
  | .cmpImm => extractArithImm .cmpImm w
  | .sturb => extractMemory .sturb w
  | .ldurb => extractMemory .ldurb w
  | .sturh => extractMemory .sturh w
  | .ldurh => extractMemory .ldurh w
  | .stur => extractMemory .stur w
  | .ldur => extractMemory .ldur w
  | .lslImm => extractShift .lslImm (leftShiftCount (fieldRotate w)) w
  | .movz => extractMoveWide .movz w
  | .bCond => extractConditional w
  | .addImm => extractArithImm .addImm w
  | .addsImm => extractArithImm .addsImm w
  | .subImm => extractArithImm .subImm w
  | .subsImm => extractArithImm .subsImm w
  | .cbz => extractCompareBranch .cbz w
  | .cbnz => extractCompareBranch .cbnz w
  | .b => { kind := .b, immediate := scaledOffset26 (fieldImm26 w) }

/-- The `decode` of R28 and R74 over any DECODE_TABLE and BR_RN_LSB (R6): the record of R71 for any word. -/
def decodeRecordIn (table : List TableRow) (lsb : BrRnLsb) (w : Word) : DecodedInstruction :=
  match lookupTag table w with
  | none => unrecognizedRecord
  | some tag => extractRecord lsb tag w

/-- The same over the default table. -/
def decodeRecord (w : Word) : DecodedInstruction := decodeRecordIn (decodeTable brRnLsb) brRnLsb w

/-- The kind of an instruction. -/
def Instr.kind : Instr → Kind
  | .addImm _ _ _ _ => .addImm
  | .addsImm _ _ _ _ => .addsImm
  | .subImm _ _ _ _ => .subImm
  | .subsImm _ _ _ _ => .subsImm
  | .cmpImm _ _ _ => .cmpImm
  | .addReg _ _ _ => .addReg
  | .addsReg _ _ _ => .addsReg
  | .subReg _ _ _ => .subReg
  | .subsReg _ _ _ => .subsReg
  | .cmpReg _ _ => .cmpReg
  | .andsReg _ _ _ => .andsReg
  | .eorReg _ _ _ => .eorReg
  | .orrReg _ _ _ => .orrReg
  | .mul _ _ _ => .mul
  | .movz _ _ => .movz
  | .lslImm _ _ _ => .lslImm
  | .lsrImm _ _ _ => .lsrImm
  | .stur _ _ _ => .stur
  | .sturb _ _ _ => .sturb
  | .sturh _ _ _ => .sturh
  | .ldur _ _ _ => .ldur
  | .ldurb _ _ _ => .ldurb
  | .ldurh _ _ _ => .ldurh
  | .b _ => .b
  | .br _ => .br
  | .cbz _ _ => .cbz
  | .cbnz _ _ => .cbnz
  | .bEq _ => .bEq
  | .bNe _ => .bNe
  | .bGe _ => .bGe
  | .bLt _ => .bLt
  | .bGt _ => .bGt
  | .bLe _ => .bLe
  | .hlt => .hlt

/-- The record an instruction stands for: R71's fields from the operands the constructor carries. A compare's
`rd` is 31, as its table row fixes it (R80, R81). -/
def Instr.record : Instr → DecodedInstruction
  | .addImm rd rn sh imm =>
    { kind := .addImm, rd := rd, rn := rn, shift := sh.setWidth 6, immediate := arithImmediate sh imm }
  | .addsImm rd rn sh imm =>
    { kind := .addsImm, rd := rd, rn := rn, shift := sh.setWidth 6, immediate := arithImmediate sh imm }
  | .subImm rd rn sh imm =>
    { kind := .subImm, rd := rd, rn := rn, shift := sh.setWidth 6, immediate := arithImmediate sh imm }
  | .subsImm rd rn sh imm =>
    { kind := .subsImm, rd := rd, rn := rn, shift := sh.setWidth 6, immediate := arithImmediate sh imm }
  | .cmpImm rn sh imm =>
    { kind := .cmpImm, rd := zeroReg, rn := rn, shift := sh.setWidth 6, immediate := arithImmediate sh imm }
  | .addReg rd rn rm => { kind := .addReg, rd := rd, rn := rn, rm := rm }
  | .addsReg rd rn rm => { kind := .addsReg, rd := rd, rn := rn, rm := rm }
  | .subReg rd rn rm => { kind := .subReg, rd := rd, rn := rn, rm := rm }
  | .subsReg rd rn rm => { kind := .subsReg, rd := rd, rn := rn, rm := rm }
  | .cmpReg rn rm => { kind := .cmpReg, rd := zeroReg, rn := rn, rm := rm }
  | .andsReg rd rn rm => { kind := .andsReg, rd := rd, rn := rn, rm := rm }
  | .eorReg rd rn rm => { kind := .eorReg, rd := rd, rn := rn, rm := rm }
  | .orrReg rd rn rm => { kind := .orrReg, rd := rd, rn := rn, rm := rm }
  | .mul rd rn rm => { kind := .mul, rd := rd, rn := rn, rm := rm }
  | .movz rd imm => { kind := .movz, rd := rd, immediate := movzImmediate imm }
  | .lslImm rd rn shift => { kind := .lslImm, rd := rd, rn := rn, shift := shift }
  | .lsrImm rd rn shift => { kind := .lsrImm, rd := rd, rn := rn, shift := shift }
  | .stur rd rn imm => { kind := .stur, rd := rd, rn := rn, immediate := memOffset imm }
  | .sturb rd rn imm => { kind := .sturb, rd := rd, rn := rn, immediate := memOffset imm }
  | .sturh rd rn imm => { kind := .sturh, rd := rd, rn := rn, immediate := memOffset imm }
  | .ldur rd rn imm => { kind := .ldur, rd := rd, rn := rn, immediate := memOffset imm }
  | .ldurb rd rn imm => { kind := .ldurb, rd := rd, rn := rn, immediate := memOffset imm }
  | .ldurh rd rn imm => { kind := .ldurh, rd := rd, rn := rn, immediate := memOffset imm }
  | .b imm => { kind := .b, immediate := scaledOffset26 imm }
  | .br rn => { kind := .br, rn := rn }
  | .cbz rt imm => { kind := .cbz, rd := rt, immediate := scaledOffset19 imm }
  | .cbnz rt imm => { kind := .cbnz, rd := rt, immediate := scaledOffset19 imm }
  | .bEq imm => { kind := .bEq, immediate := scaledOffset19 imm }
  | .bNe imm => { kind := .bNe, immediate := scaledOffset19 imm }
  | .bGe imm => { kind := .bGe, immediate := scaledOffset19 imm }
  | .bLt imm => { kind := .bLt, immediate := scaledOffset19 imm }
  | .bGt imm => { kind := .bGt, immediate := scaledOffset19 imm }
  | .bLe imm => { kind := .bLe, immediate := scaledOffset19 imm }
  | .hlt => { kind := .hlt }

/-! ### The 34 rows of spec/opcode_table.json -/

/-- One row of spec/opcode_table.json. -/
structure OpcodeRow where
  mask : Word
  expected : Word
  kind : Kind
  deriving DecidableEq, Repr

/-- spec/opcode_table.json: 34 rows in match order, the B.cond row of R76 expanded into its six codes. -/
def opcodeRows : List OpcodeRow :=
  [ ⟨0xFFE0FC1F, 0xEB00001F, .cmpReg⟩, ⟨0xFFFFFC00, 0xD61F0000, .br⟩,
    ⟨0xFFE0FC00, 0x9B007C00, .mul⟩, ⟨0xFFE0FC00, 0x8B000000, .addReg⟩,
    ⟨0xFFE0FC00, 0xAB000000, .addsReg⟩, ⟨0xFFE0FC00, 0xCB000000, .subReg⟩,
    ⟨0xFFE0FC00, 0xEB000000, .subsReg⟩, ⟨0xFFE0FC00, 0xEA000000, .andsReg⟩,
    ⟨0xFFE0FC00, 0xCA000000, .eorReg⟩, ⟨0xFFE0FC00, 0xAA000000, .orrReg⟩,
    ⟨0xFFE0001F, 0xD4400000, .hlt⟩, ⟨0xFFC0FC00, 0xD340FC00, .lsrImm⟩,
    ⟨0xFF00001F, 0xF100001F, .cmpImm⟩, ⟨0xFFE00C00, 0x38000000, .sturb⟩,
    ⟨0xFFE00C00, 0x38400000, .ldurb⟩, ⟨0xFFE00C00, 0x78000000, .sturh⟩,
    ⟨0xFFE00C00, 0x78400000, .ldurh⟩, ⟨0xFFE00C00, 0xF8000000, .stur⟩,
    ⟨0xFFE00C00, 0xF8400000, .ldur⟩, ⟨0xFFC00000, 0xD3400000, .lslImm⟩,
    ⟨0xFF800000, 0xD2800000, .movz⟩, ⟨0xFF00001F, 0x54000000, .bEq⟩,
    ⟨0xFF00001F, 0x54000001, .bNe⟩, ⟨0xFF00001F, 0x5400000A, .bGe⟩,
    ⟨0xFF00001F, 0x5400000B, .bLt⟩, ⟨0xFF00001F, 0x5400000C, .bGt⟩,
    ⟨0xFF00001F, 0x5400000D, .bLe⟩, ⟨0xFF000000, 0x91000000, .addImm⟩,
    ⟨0xFF000000, 0xB1000000, .addsImm⟩, ⟨0xFF000000, 0xD1000000, .subImm⟩,
    ⟨0xFF000000, 0xF1000000, .subsImm⟩, ⟨0xFF000000, 0xB4000000, .cbz⟩,
    ⟨0xFF000000, 0xB5000000, .cbnz⟩, ⟨0xFC000000, 0x14000000, .b⟩ ]

/-- First match wins; "a word that matches no row of the JSON is UNRECOGNIZED" (30_encoding.md, opening). -/
def opcodeKind : List OpcodeRow → Word → Kind
  | [], _ => .unrecognized
  | row :: rest, w => if (w &&& row.mask) == row.expected then row.kind else opcodeKind rest w

/-! ### The encoder -/

/-- Format I: `base | shift<<22 | imm12<<10 | n<<5 | d` (R94). -/
def formatI (base : Word) (shift : BitVec 2) (imm12 : BitVec 12) (rn rd : RegIdx) : Word :=
  base ||| shift.setWidth 32 <<< 22 ||| imm12.setWidth 32 <<< 10 ||| rn.setWidth 32 <<< 5 ||| rd.setWidth 32

/-- Format R: `base | m<<16 | n<<5 | d` (R94). -/
def formatR (base : Word) (rm rn rd : RegIdx) : Word :=
  base ||| rm.setWidth 32 <<< 16 ||| rn.setWidth 32 <<< 5 ||| rd.setWidth 32

/-- Format M: `base | imm16<<5 | d` (R94); the half-word selector is written 0. -/
def formatM (base : Word) (imm16 : BitVec 16) (rd : RegIdx) : Word :=
  base ||| imm16.setWidth 32 <<< 5 ||| rd.setWidth 32

/-- Format S: `base | rotate<<16 | bits15to10<<10 | n<<5 | d` (R94). -/
def formatS (base : Word) (rotate bits15to10 : BitVec 6) (rn rd : RegIdx) : Word :=
  base ||| rotate.setWidth 32 <<< 16 ||| bits15to10.setWidth 32 <<< 10 ||| rn.setWidth 32 <<< 5 ||| rd.setWidth 32

/-- Format D: `base | (simm9 & 0x1FF)<<12 | n<<5 | t` (R94). -/
def formatD (base : Word) (imm9 : BitVec 9) (rn rd : RegIdx) : Word :=
  base ||| imm9.setWidth 32 <<< 12 ||| rn.setWidth 32 <<< 5 ||| rd.setWidth 32

/-- Format B, B: `base | ((off/4) & 0x3FFFFFF)` (R94). -/
def formatB26 (base : Word) (imm26 : BitVec 26) : Word := base ||| imm26.setWidth 32

/-- Format B, BR: `base | n`, or `base | n<<5` with BR_RN_LSB = 5 (R94). -/
def formatBr (base : Word) : BrRnLsb → RegIdx → Word
  | .bit0, rn => base ||| rn.setWidth 32
  | .bit5, rn => base ||| rn.setWidth 32 <<< 5

/-- Format B, CBZ and CBNZ: `base | ((off/4) & 0x7FFFF)<<5 | t` (R94). -/
def formatCb (base : Word) (imm19 : BitVec 19) (rt : RegIdx) : Word :=
  base ||| imm19.setWidth 32 <<< 5 ||| rt.setWidth 32

/-- Format B, B_EQ to B_LE: `base | ((off/4) & 0x7FFFF)<<5 | cond` (R94). -/
def formatBCond (base : Word) (imm19 : BitVec 19) (cond : BitVec 4) : Word :=
  base ||| imm19.setWidth 32 <<< 5 ||| cond.setWidth 32

/-- Format H: `base | imm16<<5` (R94). -/
def formatH (base : Word) (imm16 : BitVec 16) : Word := base ||| imm16.setWidth 32 <<< 5

/-- Bits[15:10] the encoder writes for LSL_IMM: `63 - s` (R145). For `s = 0` that value is 63, which is
LSR_IMM's; the encoder writes 0, one of the values R91 says are ignored (DESIGN CHOICE, safe, log entry 9). -/
def lslSpareBits (shift : BitVec 6) : BitVec 6 := if shift = 0 then 0 else 63 - shift

/-- A word of each instruction, for either value of BR_RN_LSB: the encoding column of R94, with the bits R91
calls ignored at the value R94 writes. -/
def encodeWith (lsb : BrRnLsb) : Instr → Word
  | .addImm rd rn shift imm12 => formatI 0x91000000 shift imm12 rn rd
  | .addsImm rd rn shift imm12 => formatI 0xB1000000 shift imm12 rn rd
  | .subImm rd rn shift imm12 => formatI 0xD1000000 shift imm12 rn rd
  | .subsImm rd rn shift imm12 => formatI 0xF1000000 shift imm12 rn rd
  | .cmpImm rn shift imm12 => formatI 0xF100001F shift imm12 rn 0
  | .addReg rd rn rm => formatR 0x8B000000 rm rn rd
  | .addsReg rd rn rm => formatR 0xAB000000 rm rn rd
  | .subReg rd rn rm => formatR 0xCB000000 rm rn rd
  | .subsReg rd rn rm => formatR 0xEB000000 rm rn rd
  | .cmpReg rn rm => formatR 0xEB00001F rm rn 0
  | .andsReg rd rn rm => formatR 0xEA000000 rm rn rd
  | .eorReg rd rn rm => formatR 0xCA000000 rm rn rd
  | .orrReg rd rn rm => formatR 0xAA000000 rm rn rd
  | .mul rd rn rm => formatR 0x9B007C00 rm rn rd
  | .movz rd imm16 => formatM 0xD2800000 imm16 rd
  | .lslImm rd rn shift => formatS 0xD3400000 (leftShiftCount shift) (lslSpareBits shift) rn rd
  | .lsrImm rd rn shift => formatS 0xD340FC00 shift 0 rn rd
  | .stur rd rn imm9 => formatD 0xF8000000 imm9 rn rd
  | .sturb rd rn imm9 => formatD 0x38000000 imm9 rn rd
  | .sturh rd rn imm9 => formatD 0x78000000 imm9 rn rd
  | .ldur rd rn imm9 => formatD 0xF8400000 imm9 rn rd
  | .ldurb rd rn imm9 => formatD 0x38400000 imm9 rn rd
  | .ldurh rd rn imm9 => formatD 0x78400000 imm9 rn rd
  | .b imm26 => formatB26 0x14000000 imm26
  | .br rn => formatBr 0xD61F0000 lsb rn
  | .cbz rt imm19 => formatCb 0xB4000000 imm19 rt
  | .cbnz rt imm19 => formatCb 0xB5000000 imm19 rt
  | .bEq imm19 => formatBCond 0x54000000 imm19 0x0
  | .bNe imm19 => formatBCond 0x54000000 imm19 0x1
  | .bGe imm19 => formatBCond 0x54000000 imm19 0xA
  | .bLt imm19 => formatBCond 0x54000000 imm19 0xB
  | .bGt imm19 => formatBCond 0x54000000 imm19 0xC
  | .bLe imm19 => formatBCond 0x54000000 imm19 0xD
  | .hlt => formatH 0xD4400000 0

/-- This machine's encoder. -/
def encode (i : Instr) : Word := encodeWith brRnLsb i

/-- The bits of an instruction's words that the decoder accepts at any value and ignores: the list of R91
(the MOVZ selector, bits[15:10] of LSL_IMM, BR's spare five bits, the HLT immediate). -/
def ignoredBits : Instr → Word
  | .addImm _ _ _ _ | .addsImm _ _ _ _ | .subImm _ _ _ _ | .subsImm _ _ _ _ | .cmpImm _ _ _ => 0
  | .addReg _ _ _ | .addsReg _ _ _ | .subReg _ _ _ | .subsReg _ _ _ | .cmpReg _ _ => 0
  | .andsReg _ _ _ | .eorReg _ _ _ | .orrReg _ _ _ | .mul _ _ _ => 0
  | .movz _ _ => 0x00600000
  | .lslImm _ _ _ => 0x0000FC00
  | .lsrImm _ _ _ => 0
  | .stur _ _ _ | .sturb _ _ _ | .sturh _ _ _ | .ldur _ _ _ | .ldurb _ _ _ | .ldurh _ _ _ => 0
  | .b _ => 0
  | .br _ => 0x000003E0
  | .cbz _ _ | .cbnz _ _ => 0
  | .bEq _ | .bNe _ | .bGe _ | .bLt _ | .bGt _ | .bLe _ => 0
  | .hlt => 0x001FFFE0

/-! ### Words as bytes -/

/-- Byte `k` of a word, bits[8k+7:8k]: the byte at the word's address plus `k` (R41, R43). -/
def wordByte (w : Word) (k : Nat) : Byte := w.extractLsb' (8 * k) 8

/-- The word of four bytes, the lowest address first (R41, R43). -/
def wordOfBytes (b0 b1 b2 b3 : Byte) : Word := b3 ++ b2 ++ b1 ++ b0

/-- What the decoder reads from the bits of a row of spec/opcode_table.json, stored as the hardware stores an
instruction: four bytes, least significant first. Bits above `nbits` are 0; every row has 32. -/
def decodeTableWord (nbits w : Nat) : Option Instr :=
  if nbits ≤ 32 then
    let v := BitVec.ofNat 32 (w % 2 ^ nbits)
    (decode (wordOfBytes (wordByte v 0) (wordByte v 1) (wordByte v 2) (wordByte v 3))).toOption
  else none

end Sys2Proof
end

