-- ==== Sys2Proof/Machine/State.lean ====
section
/-! DEFINITION. The state of tp-1-acso CORE, all that spec/10_state.md section 1 lists, with the store of
spec/20_memory.md rule R40; the reasons a step can stop; the state after reset (R30, R220). -/

namespace Sys2Proof.Machine

/-- The condition flags of R18. There is no carry and no overflow flag. -/
structure Flags where
  /-- `flags.zero` (Z). -/
  zero : Bool
  /-- `flags.negative` (N). -/
  negative : Bool
  deriving DecidableEq, Repr

/-- The byte store of R40 over all 2^64 addresses, as (address, byte) pairs: addresses strictly rising and
below 2^64, no entry equal to what an unlisted address reads as (`Memory.wf` in Machine/Memory.lean). Every
function from 64-bit addresses to bytes has exactly one such list. -/
abbrev Memory := List Host.Cell

/-- The machine between two steps: the Current snapshot of R23 and the memory beside it. Nothing else is
state: the fetched word, the decoded record and Next are transient (R22, R23, R27, R31, R32). -/
structure State where
  /-- `registers[0]` to `registers[31]` (R10); index 31 reads as 0 whatever is here (R11) and is committed as 0
  (R25). -/
  registers : Vector Doubleword 32
  /-- `program_counter`: the address of the instruction the next step executes (R14). -/
  programCounter : Addr
  /-- Z and N (R18). -/
  flags : Flags
  /-- `halted` (R21). -/
  halted : Bool
  /-- `Mem` (R40). -/
  memory : Memory
  deriving DecidableEq, Repr

/-- There is no fault: the hardware "raises no synchronous exception" (R200), takes no interrupt (R202) and has
no trap (R204), and it "has no way to be told an access failed" (R57). The type is empty, so that no step can
answer one. -/
inductive Fault where
  deriving DecidableEq, Repr

/-- The reasons a step draws no conclusion. -/
inductive Refusal where
  /-- An instruction of the table without a meaning: no arm of `exec` answers it in this model. Safe. -/
  | notModelled (mnemonic : String)
  /-- Raised by the step alone, never by an instruction: the machine is running and its program counter is not a
  multiple of 4, a state only BR makes. "a model should refuse to step from a state whose program counter is not
  a multiple of 4" (R182, 90_conflicts.md C3, 93_implementation_defined.md U4). Safe (log entry 3). -/
  | misalignedProgramCounter (pc : Addr)
  /-- Raised by `stepWith` alone, under parameters whose MEM_VALID does not hold everywhere, never by an
  instruction and never by `step`: the fetch or a data access of the step touches the byte at `a`, outside
  MEM_VALID. "If a model narrows MEM_VALID, an access (a fetch included) that touches a byte outside it has no
  behaviour defined by any source; the model should refuse it" (R57, 93_implementation_defined.md U6, decision
  D7). Safe (log entry 4). -/
  | outsideMemory (a : Addr)
  deriving DecidableEq, Repr

/-- The state after reset for any RESET_PC and MEM_INIT, the two parameters R30 leaves open: every register 0,
Z and N false, running. -/
def State.resetAt (resetPc : Addr) (memInit : Memory) : State where
  registers := Vector.replicate 32 0
  programCounter := resetPc
  flags := { zero := false, negative := false }
  halted := false
  memory := memInit

/-- This machine after reset: RESET_PC from Config (log entry 2), MEM_INIT with nothing listed (log entry 1). -/
def State.reset : State := State.resetAt Config.resetPc []

end Sys2Proof.Machine
end

