-- ==== Sys2Proof/Machine/Memory.lean ====
section
/-! DEFINITION. The memory collaborator and the load/store unit of spec/20_memory.md: the byte store R40,
`read_word` and `write_word` (R41, R42) and the six access primitives built from them (R47 to R52), with the lane
arithmetic of R45 and R46. "The CORE never checks an address" (R57, R53, R58); a step that would touch a byte outside
MEM_VALID is refused before it runs (Machine/Cycle.lean). -/

namespace Sys2Proof.Machine

/-! ### The byte store -/

/-- What an address that no entry lists reads as. DESIGN CHOICE, unsafe (log entry 1): MEM_INIT is open (R6). -/
def unlistedByte : Byte := 0

/-- `Mem[a]` (R40) at a numeric address. -/
def Memory.readAt : Memory → Nat → Byte
  | [], _ => unlistedByte
  | (k, v) :: rest, a => if k = a then v else Memory.readAt rest a

/-- `Mem[a]` (R40). -/
def Memory.readByte (m : Memory) (a : Addr) : Byte := m.readAt a.toNat

/-- The store without its entry for an address. -/
def Memory.erase (m : Memory) (a : Nat) : Memory := m.filter (fun cell => cell.1 != a)

/-- An entry put before the first entry of a higher address. -/
def Memory.insert : Memory → Nat → Byte → Memory
  | [], a, v => [(a, v)]
  | (k, w) :: rest, a, v => if a < k then (a, v) :: (k, w) :: rest else (k, w) :: Memory.insert rest a v

/-- `Mem[a] <- v` (R42), keeping the canonical form. -/
def Memory.writeByte (m : Memory) (a : Addr) (v : Byte) : Memory :=
  if v = unlistedByte then m.erase a.toNat else (m.erase a.toNat).insert a.toNat v

/-- Every address of the list is above `low` and the addresses rise strictly; none is 2^64 or more, and no
entry holds what an unlisted address reads as. -/
def Memory.wfAbove : Memory → Nat → Bool
  | [], _ => true
  | (k, v) :: rest, low => decide (low ≤ k) && decide (k < 2 ^ 64) && (v != unlistedByte) && Memory.wfAbove rest (k + 1)

/-- The canonical form: equal stores are equal lists. -/
def Memory.wf (m : Memory) : Bool := m.wfAbove 0

/-! ### The two calls of the memory interface -/

/-- `read_word(a)`: `Mem[a+3] ++ Mem[a+2] ++ Mem[a+1] ++ Mem[a]`, addresses modulo 2^64, any alignment (R41). -/
def Memory.readWord (m : Memory) (a : Addr) : Word :=
  wordOfBytes (m.readByte a) (m.readByte (a + 1)) (m.readByte (a + 2)) (m.readByte (a + 3))

/-- `write_word(a, v)`: `Mem[a+i] <- v[8i+7:8i]`, addresses modulo 2^64, any alignment (R42). -/
def Memory.writeWord (m : Memory) (a : Addr) (v : Word) : Memory :=
  (((m.writeByte a (wordByte v 0)).writeByte (a + 1) (wordByte v 1)).writeByte (a + 2) (wordByte v 2)).writeByte
    (a + 3) (wordByte v 3)

/-! ### Lanes -/

/-- `address & ~3` (R45, R46). -/
def alignDown (a : Addr) : Addr := a &&& ~~~3#64

/-- The byte lane, `address mod 4` (R45). -/
def byteLane (a : Addr) : Nat := a.toNat % 4

/-- The halfword lane, `(address mod 4) div 2` (R46, decision D21). -/
def halfLane (a : Addr) : Nat := a.toNat % 4 / 2

/-! ### The access primitives -/

/-- `MemRead(address, 1)` (R47). -/
def Memory.read8 (m : Memory) (a : Addr) : Byte :=
  (m.readWord (alignDown a)).extractLsb' (8 * byteLane a) 8

/-- `MemRead(address, 2)` (R48). -/
def Memory.read16 (m : Memory) (a : Addr) : Halfword :=
  (m.readWord (alignDown a)).extractLsb' (16 * halfLane a) 16

/-- `MemRead(address, 8)`: low half first, neither address aligned down (R49). -/
def Memory.read64 (m : Memory) (a : Addr) : Doubleword :=
  m.readWord (a + 4) ++ m.readWord a

/-- The word R50 writes back: the byte lane cleared, the new byte inserted. -/
def insertByteLane (w : Word) (lane : Nat) (v : Byte) : Word :=
  (w &&& ~~~(0xFF#32 <<< (8 * lane))) ||| (v.setWidth 32 <<< (8 * lane))

/-- The word R51 writes back: the halfword lane cleared, the new halfword inserted. -/
def insertHalfLane (w : Word) (lane : Nat) (v : Halfword) : Word :=
  (w &&& ~~~(0xFFFF#32 <<< (16 * lane))) ||| (v.setWidth 32 <<< (16 * lane))

/-- `MemWrite(address, 1, v)`: read-modify-write of the aligned word (R50). -/
def Memory.write8 (m : Memory) (a : Addr) (v : Byte) : Memory :=
  m.writeWord (alignDown a) (insertByteLane (m.readWord (alignDown a)) (byteLane a) v)

/-- `MemWrite(address, 2, v)`: read-modify-write of the aligned word (R51). -/
def Memory.write16 (m : Memory) (a : Addr) (v : Halfword) : Memory :=
  m.writeWord (alignDown a) (insertHalfLane (m.readWord (alignDown a)) (halfLane a) v)

/-- `MemWrite(address, 8, v)`: `write_word(address, v[31:0])`, then `write_word(address + 4, v[63:32])`
(R52, R64). -/
def Memory.write64 (m : Memory) (a : Addr) (v : Doubleword) : Memory :=
  (m.writeWord a (v.extractLsb' 0 32)).writeWord (a + 4) (v.extractLsb' 32 32)

end Sys2Proof.Machine
end

