-- ==== Sys2Proof/Machine/Ops.lean ====
section
/-! DEFINITION. The named operations on the state that every meaning is written over: register read and write
(R11, R12), the program counter's advance (R15, R16), the commit (R25), fetch (R54), and the shapes of Next that
several instructions share. Every operand is read from Current, never from Next (R23): a meaning reads its
argument `s` and updates `s.advance`.

TAKING AN EXCEPTION AND RETURNING FROM ONE have no operation here, because the hardware has neither: no
synchronous exception (R200), no interrupt (R202), no trap entry (R204), no trap return (R205), one mode (R206). -/

namespace Sys2Proof.Machine

/-- What a meaning and a step answer. -/
abbrev Result := Host.Outcome State Fault Refusal

/-- `X[i]`: 0 when `i = 31`, else `Current.registers[i]` (R11). -/
def State.readReg (s : State) (i : RegIdx) : Doubleword :=
  if i = zeroReg then 0 else s.registers[i.toNat]'i.isLt

/-- `X[i] <- v`: dropped when `i = 31` (R12). -/
def State.writeReg (s : State) (i : RegIdx) (v : Doubleword) : State :=
  if i = zeroReg then s else { s with registers := s.registers.set i.toNat v i.isLt }

/-- `pc <- t` (R15). -/
def State.setPc (s : State) (t : Addr) : State := { s with programCounter := t }

/-- Next before the handler runs: "a copy of Current with the program counter already pre-advanced by 4 bytes",
modulo 2^64 (R15, R16). -/
def State.advance (s : State) : State := s.setPc (s.programCounter + 4)

/-- The memory after a step's `write_word` calls (R23: memory is not part of the snapshots). -/
def State.setMemory (s : State) (m : Memory) : State := { s with memory := m }

/-- `halted <- true` (R190). -/
def State.setHalted (s : State) : State := { s with halted := true }

/-- The commit: `Next.registers[31] <- 0 ; Current <- Next` (R24 line 6, R25). -/
def State.commit (s : State) : State :=
  { s with registers := s.registers.set 31 0 }

/-- The commit of what a handler answered. -/
def commitResult : Result → Result
  | .next t => .next t.commit
  | .fault f => .fault f
  | .refused r => .refused r

/-- The fetch: `read_word(Current.program_counter)` (R54). -/
def State.fetch (s : State) : Word := s.memory.readWord s.programCounter

/-- `X[rd] <- v` with the default advance: the shape of R110 and R120 for the kinds that set no flag, of the
moves, the shifts and the loads. -/
def writeResult (s : State) (rd : RegIdx) (v : Doubleword) : Result := .next (s.advance.writeReg rd v)

/-- A store's memory with the default advance (R150). -/
def storeResult (s : State) (m : Memory) : Result := .next (s.advance.setMemory m)

/-- A branch: the target when its predicate holds, else the default advance untouched (R170). -/
def branchResult (s : State) (taken : Bool) (target : Addr) : Result :=
  .next (if taken then s.advance.setPc target else s.advance)

end Sys2Proof.Machine
end

