-- ==== Sys2Proof/Machine/Operands.lean ====
section
/-! DEFINITION. The operand forms: the address of a load or store (R44), the target of a relative branch (R170,
R171, R173), the shifts (R145, R146) and the zero extensions of the loads (R155, R156). The immediates
themselves (R80, R82, R84, R85) are `arithImmediate`, `movzImmediate`, `memOffset`, `scaledOffset19` and
`scaledOffset26` of Decode.lean; the register forms' second operand is the plain register (R120). -/

namespace Sys2Proof.Machine

/-- The effective address `(X[rn] + sext_9(imm9)) mod 2^64` (R44, R64, R150). -/
def effectiveAddress (s : State) (rn : RegIdx) (imm9 : BitVec 9) : Addr := s.readReg rn + memOffset imm9

/-- `pc + immediate` with a 19-bit scaled offset, relative to the branch itself (R170, R173). -/
def branchTarget19 (s : State) (imm19 : BitVec 19) : Addr := s.programCounter + scaledOffset19 imm19

/-- `pc + immediate` with a 26-bit scaled offset (R171). -/
def branchTarget26 (s : State) (imm26 : BitVec 26) : Addr := s.programCounter + scaledOffset26 imm26

/-- `(v << shift) mod 2^64` (R145). -/
def shiftLeft (v : Doubleword) (shift : BitVec 6) : Doubleword := v <<< shift.toNat

/-- `unsigned(v) >> shift`, zeros entering at bit 63 (R146). -/
def shiftRight (v : Doubleword) (shift : BitVec 6) : Doubleword := v >>> shift.toNat

/-- `zext_8` (R155). -/
def zeroExtendByte (b : Byte) : Doubleword := b.setWidth 64

/-- `zext_16` (R156). -/
def zeroExtendHalf (h : Halfword) : Doubleword := h.setWidth 64

/-- `X[rd][7:0]`: what STURB stores (R152). -/
def lowByte (v : Doubleword) : Byte := v.extractLsb' 0 8

/-- `X[rd][15:0]`: what STURH stores (R153). -/
def lowHalf (v : Doubleword) : Halfword := v.extractLsb' 0 16

end Sys2Proof.Machine
end

