-- ==== Sys2Proof/Machine/Calls.lean ====
section
/-! DEFINITION. The `read_word` and `write_word` calls of the memory interface (spec/10_state.md rule R28): which
ones an instruction makes, in order (R228), which bytes they touch, and what they leave of the store. -/

namespace Sys2Proof.Machine

/-- One call of the memory interface. -/
inductive MemCall where
  /-- `read_word(a)`. -/
  | read (a : Addr)
  /-- `write_word(a, v)`. -/
  | write (a : Addr) (v : Word)
  deriving DecidableEq, Repr

/-- The four bytes a call touches (R41, R42), addresses modulo 2^64. -/
def MemCall.touched : MemCall → List Addr
  | .read a => [a, a + 1, a + 2, a + 3]
  | .write a _ => [a, a + 1, a + 2, a + 3]

/-- The calls of `MemRead(a, 1)` and of `MemRead(a, 2)` (R47, R48). -/
def narrowReadCalls (a : Addr) : List MemCall := [.read (alignDown a)]

/-- The calls of `MemRead(a, 8)`, low half first (R49). -/
def doubleReadCalls (a : Addr) : List MemCall := [.read a, .read (a + 4)]

/-- The calls of `MemWrite(a, 1, v)` (R50). -/
def byteWriteCalls (m : Memory) (a : Addr) (v : Byte) : List MemCall :=
  [.read (alignDown a), .write (alignDown a) (insertByteLane (m.readWord (alignDown a)) (byteLane a) v)]

/-- The calls of `MemWrite(a, 2, v)` (R51). -/
def halfWriteCalls (m : Memory) (a : Addr) (v : Halfword) : List MemCall :=
  [.read (alignDown a), .write (alignDown a) (insertHalfLane (m.readWord (alignDown a)) (halfLane a) v)]

/-- The calls of `MemWrite(a, 8, v)`, low half first (R52). -/
def doubleWriteCalls (a : Addr) (v : Doubleword) : List MemCall :=
  [.write a (v.extractLsb' 0 32), .write (a + 4) (v.extractLsb' 32 32)]

/-- The data accesses of an instruction. "No other kind makes a data access" (R228). -/
def dataCalls (i : Instr) (s : State) : List MemCall :=
  match i with
  | .addImm _ _ _ _ | .addsImm _ _ _ _ | .subImm _ _ _ _ | .subsImm _ _ _ _ | .cmpImm _ _ _ => []
  | .addReg _ _ _ | .addsReg _ _ _ | .subReg _ _ _ | .subsReg _ _ _ | .cmpReg _ _ => []
  | .andsReg _ _ _ | .eorReg _ _ _ | .orrReg _ _ _ | .mul _ _ _ => []
  | .movz _ _ | .lslImm _ _ _ | .lsrImm _ _ _ => []
  | .stur rd rn imm9 => doubleWriteCalls (effectiveAddress s rn imm9) (s.readReg rd)
  | .sturb rd rn imm9 => byteWriteCalls s.memory (effectiveAddress s rn imm9) (lowByte (s.readReg rd))
  | .sturh rd rn imm9 => halfWriteCalls s.memory (effectiveAddress s rn imm9) (lowHalf (s.readReg rd))
  | .ldur _ rn imm9 => doubleReadCalls (effectiveAddress s rn imm9)
  | .ldurb _ rn imm9 => narrowReadCalls (effectiveAddress s rn imm9)
  | .ldurh _ rn imm9 => narrowReadCalls (effectiveAddress s rn imm9)
  | .b _ | .br _ | .cbz _ _ | .cbnz _ _ => []
  | .bEq _ | .bNe _ | .bGe _ | .bLt _ | .bGt _ | .bLe _ => []
  | .hlt => []

/-- The data accesses of a decoded word; an unrecognized word makes none (R192). -/
def decodedCalls (d : Except Unrecognized Instr) (s : State) : List MemCall :=
  match d with
  | .ok i => dataCalls i s
  | .error _ => []

/-- The store after a list of calls: a read changes nothing (R41), a write is complete when it returns (R42). -/
def Memory.replay : Memory → List MemCall → Memory
  | m, [] => m
  | m, .read _ :: rest => Memory.replay m rest
  | m, .write a v :: rest => Memory.replay (m.writeWord a v) rest

/-- The first byte outside MEM_VALID that a list of calls touches (R57). -/
def firstOutside (valid : Addr → Bool) (calls : List MemCall) : Option Addr :=
  (calls.flatMap MemCall.touched).find? (fun a => !valid a)

end Sys2Proof.Machine
end

