-- ==== Sys2Proof/Machine/Flags.lean ====
section
/-! DEFINITION. The flag computation `SetNZ` (R19), the result shapes of the flag-setting kinds, and the six
predicates of the condition resolver's table (R87, R175 to R180). -/

namespace Sys2Proof.Machine

/-- The flags of a 64-bit result: `Z <- (r = 0)`; `N <- (r[63] = 1)` (R19). -/
def flagsOf (r : Doubleword) : Flags := { zero := r == 0, negative := r.msb }

/-- `SetNZ(r)` (R19). -/
def State.setNZ (s : State) (r : Doubleword) : State := { s with flags := flagsOf r }

/-- `X[rd] <- r ; SetNZ(r)` with the default advance (R112, R114, R122, R124, R126). -/
def writeResultNZ (s : State) (rd : RegIdx) (r : Doubleword) : Result :=
  .next ((s.advance.writeReg rd r).setNZ r)

/-- `SetNZ(r)` alone with the default advance (R115, R125). -/
def compareResult (s : State) (r : Doubleword) : Result := .next (s.advance.setNZ r)

/-- "equal": `Z = true` (R175). -/
def condEq (f : Flags) : Bool := f.zero

/-- "not-equal": `Z = false` (R176). -/
def condNe (f : Flags) : Bool := !f.zero

/-- "greater-or-equal": `N = false` (R177). -/
def condGe (f : Flags) : Bool := !f.negative

/-- "less-than": `N = true` (R178). -/
def condLt (f : Flags) : Bool := f.negative

/-- "greater-than": `Z = false and N = false` (R179). -/
def condGt (f : Flags) : Bool := !f.zero && !f.negative

/-- "less-or-equal": `Z = true or N = true` (R180). -/
def condLe (f : Flags) : Bool := f.zero || f.negative

end Sys2Proof.Machine
end

