-- ==== Sys2Proof/Machine/ArithImmediate.lean ====
section
/-! DEFINITION. spec/40_arith_immediate.md: ADD, ADDS, SUB, SUBS and CMP with a 12-bit immediate (R110 to R115). -/

namespace Sys2Proof.Machine

/-- ADD_IMM (R111): `X[rd] <- X[rn] + immediate`. -/
def execAddImm (rd rn : RegIdx) (shift : BitVec 2) (imm12 : BitVec 12) (s : State) : Result :=
  writeResult s rd (s.readReg rn + arithImmediate shift imm12)

/-- ADDS_IMM (R112): the sum, and `SetNZ` of it. -/
def execAddsImm (rd rn : RegIdx) (shift : BitVec 2) (imm12 : BitVec 12) (s : State) : Result :=
  writeResultNZ s rd (s.readReg rn + arithImmediate shift imm12)

/-- SUB_IMM (R113): `X[rd] <- X[rn] - immediate`. -/
def execSubImm (rd rn : RegIdx) (shift : BitVec 2) (imm12 : BitVec 12) (s : State) : Result :=
  writeResult s rd (s.readReg rn - arithImmediate shift imm12)

/-- SUBS_IMM (R114): the difference, and `SetNZ` of it. -/
def execSubsImm (rd rn : RegIdx) (shift : BitVec 2) (imm12 : BitVec 12) (s : State) : Result :=
  writeResultNZ s rd (s.readReg rn - arithImmediate shift imm12)

/-- CMP_IMM (R115): `SetNZ` of the difference, no register written. -/
def execCmpImm (rn : RegIdx) (shift : BitVec 2) (imm12 : BitVec 12) (s : State) : Result :=
  compareResult s (s.readReg rn - arithImmediate shift imm12)

end Sys2Proof.Machine
end

