-- ==== Sys2Proof/Machine/ArithRegister.lean ====
section
/-! DEFINITION. spec/41_arith_logic_register.md: ADD, ADDS, SUB, SUBS, CMP, ANDS, EOR, ORR and MUL on registers
(R120 to R129). -/

namespace Sys2Proof.Machine

/-- ADD_REG (R121). -/
def execAddReg (rd rn rm : RegIdx) (s : State) : Result := writeResult s rd (s.readReg rn + s.readReg rm)

/-- ADDS_REG (R122). -/
def execAddsReg (rd rn rm : RegIdx) (s : State) : Result := writeResultNZ s rd (s.readReg rn + s.readReg rm)

/-- SUB_REG (R123). -/
def execSubReg (rd rn rm : RegIdx) (s : State) : Result := writeResult s rd (s.readReg rn - s.readReg rm)

/-- SUBS_REG (R124). -/
def execSubsReg (rd rn rm : RegIdx) (s : State) : Result := writeResultNZ s rd (s.readReg rn - s.readReg rm)

/-- CMP_REG (R125): no register written. -/
def execCmpReg (rn rm : RegIdx) (s : State) : Result := compareResult s (s.readReg rn - s.readReg rm)

/-- ANDS_REG (R126): sets the flags (decision D2). -/
def execAndsReg (rd rn rm : RegIdx) (s : State) : Result := writeResultNZ s rd (s.readReg rn &&& s.readReg rm)

/-- EOR_REG (R127). -/
def execEorReg (rd rn rm : RegIdx) (s : State) : Result := writeResult s rd (s.readReg rn ^^^ s.readReg rm)

/-- ORR_REG (R128). -/
def execOrrReg (rd rn rm : RegIdx) (s : State) : Result := writeResult s rd (s.readReg rn ||| s.readReg rm)

/-- MUL (R129): the low 64 bits of the product. -/
def execMul (rd rn rm : RegIdx) (s : State) : Result := writeResult s rd (s.readReg rn * s.readReg rm)

end Sys2Proof.Machine
end

