-- ==== Sys2Proof/Machine/ControlFlow.lean ====
section
/-! DEFINITION. spec/45_control_flow.md: B, BR, CBZ, CBNZ and the six conditional branches (R170 to R180). A
branch writes nothing but the program counter, and reads the flags of Current. -/

namespace Sys2Proof.Machine

/-- B (R171): always taken. -/
def execB (imm26 : BitVec 26) (s : State) : Result := branchResult s true (branchTarget26 s imm26)

/-- BR (R172): the whole register, "with no masking, no alignment and no check". -/
def execBr (rn : RegIdx) (s : State) : Result := branchResult s true (s.readReg rn)

/-- CBZ (R173): all 64 bits of the register are tested. -/
def execCbz (rt : RegIdx) (imm19 : BitVec 19) (s : State) : Result :=
  branchResult s (s.readReg rt == 0) (branchTarget19 s imm19)

/-- CBNZ (R174). -/
def execCbnz (rt : RegIdx) (imm19 : BitVec 19) (s : State) : Result :=
  branchResult s (s.readReg rt != 0) (branchTarget19 s imm19)

/-- B_EQ (R175). -/
def execBEq (imm19 : BitVec 19) (s : State) : Result := branchResult s (condEq s.flags) (branchTarget19 s imm19)

/-- B_NE (R176). -/
def execBNe (imm19 : BitVec 19) (s : State) : Result := branchResult s (condNe s.flags) (branchTarget19 s imm19)

/-- B_GE (R177). -/
def execBGe (imm19 : BitVec 19) (s : State) : Result := branchResult s (condGe s.flags) (branchTarget19 s imm19)

/-- B_LT (R178). -/
def execBLt (imm19 : BitVec 19) (s : State) : Result := branchResult s (condLt s.flags) (branchTarget19 s imm19)

/-- B_GT (R179). -/
def execBGt (imm19 : BitVec 19) (s : State) : Result := branchResult s (condGt s.flags) (branchTarget19 s imm19)

/-- B_LE (R180). -/
def execBLe (imm19 : BitVec 19) (s : State) : Result := branchResult s (condLe s.flags) (branchTarget19 s imm19)

end Sys2Proof.Machine
end

