-- ==== Sys2Proof/Machine/Halt.lean ====
section
/-! DEFINITION. spec/46_halt_unrecognized.md: HLT (R190) and the unrecognized word (R192). -/

namespace Sys2Proof.Machine

/-- HLT (R190): `halted <- true`; the staged advance stays, so the program counter is `pc + 4`
(90_conflicts.md C1). -/
def execHlt (s : State) : Result := .next s.advance.setHalted

/-- UNRECOGNIZED (R192): a silent no-op, only the default advance applies. -/
def execUnrecognized (s : State) : Result := .next s.advance

end Sys2Proof.Machine
end

