-- ==== Sys2Proof/Machine/LoadStore.lean ====
section
/-! DEFINITION. spec/44_load_store.md: the six unscaled loads and stores (R150 to R156). The address uses the base
in Current, also when the base is the load's destination (R154). -/

namespace Sys2Proof.Machine

/-- STUR (R151): `MemWrite(address, 8, X[rd])`. -/
def execStur (rd rn : RegIdx) (imm9 : BitVec 9) (s : State) : Result :=
  storeResult s (s.memory.write64 (effectiveAddress s rn imm9) (s.readReg rd))

/-- STURB (R152): `MemWrite(address, 1, X[rd][7:0])`. -/
def execSturb (rd rn : RegIdx) (imm9 : BitVec 9) (s : State) : Result :=
  storeResult s (s.memory.write8 (effectiveAddress s rn imm9) (lowByte (s.readReg rd)))

/-- STURH (R153): `MemWrite(address, 2, X[rd][15:0])`. -/
def execSturh (rd rn : RegIdx) (imm9 : BitVec 9) (s : State) : Result :=
  storeResult s (s.memory.write16 (effectiveAddress s rn imm9) (lowHalf (s.readReg rd)))

/-- LDUR (R154): `X[rd] <- MemRead(address, 8)`. -/
def execLdur (rd rn : RegIdx) (imm9 : BitVec 9) (s : State) : Result :=
  writeResult s rd (s.memory.read64 (effectiveAddress s rn imm9))

/-- LDURB (R155): zero-extended, never sign-extended. -/
def execLdurb (rd rn : RegIdx) (imm9 : BitVec 9) (s : State) : Result :=
  writeResult s rd (zeroExtendByte (s.memory.read8 (effectiveAddress s rn imm9)))

/-- LDURH (R156): zero-extended, never sign-extended. -/
def execLdurh (rd rn : RegIdx) (imm9 : BitVec 9) (s : State) : Result :=
  writeResult s rd (zeroExtendHalf (s.memory.read16 (effectiveAddress s rn imm9)))

end Sys2Proof.Machine
end

