-- ==== Sys2Proof/Machine/MoveShift.lean ====
section
/-! DEFINITION. spec/42_move_wide.md (MOVZ, R140) and spec/43_shift_immediate.md (LSL_IMM and LSR_IMM, R145 and
R146). -/

namespace Sys2Proof.Machine

/-- MOVZ (R140): bits[15:0] = `imm16`, bits[63:16] = 0; no register is read. -/
def execMovz (rd : RegIdx) (imm16 : BitVec 16) (s : State) : Result := writeResult s rd (movzImmediate imm16)

/-- LSL_IMM (R145). -/
def execLslImm (rd rn : RegIdx) (shift : BitVec 6) (s : State) : Result :=
  writeResult s rd (shiftLeft (s.readReg rn) shift)

/-- LSR_IMM (R146): logical, the sign bit is never copied. -/
def execLsrImm (rd rn : RegIdx) (shift : BitVec 6) (s : State) : Result :=
  writeResult s rd (shiftRight (s.readReg rn) shift)

end Sys2Proof.Machine
end

