-- ==== Sys2Proof/Machine/Dispatch.lean ====
section
/-! DEFINITION. The executor: one arm per constructor of Instr, each one direct call of its meaning. This is
`execute` of R28: Current in, Next out, the default advance already staged (R15). -/

namespace Sys2Proof.Machine

def exec (i : Instr) (s : State) : Host.Outcome State Fault Refusal :=
  match i with
  | .addImm rd rn shift imm12 => Sys2Proof.Machine.execAddImm rd rn shift imm12 s
  | .addsImm rd rn shift imm12 => Sys2Proof.Machine.execAddsImm rd rn shift imm12 s
  | .subImm rd rn shift imm12 => Sys2Proof.Machine.execSubImm rd rn shift imm12 s
  | .subsImm rd rn shift imm12 => Sys2Proof.Machine.execSubsImm rd rn shift imm12 s
  | .cmpImm rn shift imm12 => Sys2Proof.Machine.execCmpImm rn shift imm12 s
  | .addReg rd rn rm => Sys2Proof.Machine.execAddReg rd rn rm s
  | .addsReg rd rn rm => Sys2Proof.Machine.execAddsReg rd rn rm s
  | .subReg rd rn rm => Sys2Proof.Machine.execSubReg rd rn rm s
  | .subsReg rd rn rm => Sys2Proof.Machine.execSubsReg rd rn rm s
  | .cmpReg rn rm => Sys2Proof.Machine.execCmpReg rn rm s
  | .andsReg rd rn rm => Sys2Proof.Machine.execAndsReg rd rn rm s
  | .eorReg rd rn rm => Sys2Proof.Machine.execEorReg rd rn rm s
  | .orrReg rd rn rm => Sys2Proof.Machine.execOrrReg rd rn rm s
  | .mul rd rn rm => Sys2Proof.Machine.execMul rd rn rm s
  | .movz rd imm16 => Sys2Proof.Machine.execMovz rd imm16 s
  | .lslImm rd rn shift => Sys2Proof.Machine.execLslImm rd rn shift s
  | .lsrImm rd rn shift => Sys2Proof.Machine.execLsrImm rd rn shift s
  | .stur rd rn imm9 => Sys2Proof.Machine.execStur rd rn imm9 s
  | .sturb rd rn imm9 => Sys2Proof.Machine.execSturb rd rn imm9 s
  | .sturh rd rn imm9 => Sys2Proof.Machine.execSturh rd rn imm9 s
  | .ldur rd rn imm9 => Sys2Proof.Machine.execLdur rd rn imm9 s
  | .ldurb rd rn imm9 => Sys2Proof.Machine.execLdurb rd rn imm9 s
  | .ldurh rd rn imm9 => Sys2Proof.Machine.execLdurh rd rn imm9 s
  | .b imm26 => Sys2Proof.Machine.execB imm26 s
  | .br rn => Sys2Proof.Machine.execBr rn s
  | .cbz rt imm19 => Sys2Proof.Machine.execCbz rt imm19 s
  | .cbnz rt imm19 => Sys2Proof.Machine.execCbnz rt imm19 s
  | .bEq imm19 => Sys2Proof.Machine.execBEq imm19 s
  | .bNe imm19 => Sys2Proof.Machine.execBNe imm19 s
  | .bGe imm19 => Sys2Proof.Machine.execBGe imm19 s
  | .bLt imm19 => Sys2Proof.Machine.execBLt imm19 s
  | .bGt imm19 => Sys2Proof.Machine.execBGt imm19 s
  | .bLe imm19 => Sys2Proof.Machine.execBLe imm19 s
  | .hlt => Sys2Proof.Machine.execHlt s

end Sys2Proof.Machine
end

