-- ==== Sys2Proof/Machine/Parameters.lean ====
section
/-! DEFINITION. The five named parameters of spec/00_scope.md rule R6, which the source leaves open, and this
machine's choice of them: the spec's defaults where it has them (log entries 4, 5, 7), and log entries 1 and 2 for
MEM_INIT and RESET_PC, which have none. They are fixed for one machine and no part of its state. -/

namespace Sys2Proof.Machine

/-- A choice of the parameters of R6. -/
structure Parameters where
  /-- DECODE_TABLE: the ordered list of `(mask, expected, kind)` (R74, R76, decision D1). -/
  decodeTable : List TableRow
  /-- BR_RN_LSB (R85, decision D18). -/
  brRnLsb : BrRnLsb
  /-- RESET_PC (R30, R221, decision D13). -/
  resetPc : Addr
  /-- MEM_INIT (R30, R221, decision D13): every function from addresses to bytes is one canonical list. -/
  memInit : Memory
  /-- MEM_VALID: the addresses the memory collaborator accepts (R57, decision D7). -/
  memValid : Addr → Bool

/-- The choice with the spec's default table for a value of BR_RN_LSB (R76), every address valid (R6), and this
model's RESET_PC and MEM_INIT. -/
def Parameters.ofBrRnLsb (lsb : BrRnLsb) : Parameters where
  decodeTable := Sys2Proof.decodeTable lsb
  brRnLsb := lsb
  resetPc := Config.resetPc
  memInit := []
  memValid := fun _ => true

/-- This machine's parameters. -/
def Parameters.default : Parameters := Parameters.ofBrRnLsb Sys2Proof.brRnLsb

/-- The constraints of 92_eei_decisions.md, "Parameters left OPEN": the order of DECODE_TABLE and RESET_PC a
multiple of 4; and MEM_INIT in the canonical form that stands for it. -/
def Parameters.admitted (p : Parameters) : Bool :=
  tableOrdered p.decodeTable && p.resetPc.toNat % 4 == 0 && p.memInit.wf

/-- The decoder under a choice of DECODE_TABLE and BR_RN_LSB (R74). -/
def Parameters.decode (p : Parameters) (w : Word) : Except Unrecognized Instr :=
  decodeIn p.decodeTable p.brRnLsb w

/-- The decoded record under the same choice (R28, R71). -/
def Parameters.decodeRecord (p : Parameters) (w : Word) : DecodedInstruction :=
  decodeRecordIn p.decodeTable p.brRnLsb w

/-- The state after reset under a choice of RESET_PC and MEM_INIT (R30, R220). -/
def Parameters.reset (p : Parameters) : State := State.resetAt p.resetPc p.memInit

end Sys2Proof.Machine
end

