-- ==== Sys2Proof/Machine/Cycle.lean ====
section
/-! DEFINITION. The step driver of spec/10_state.md rules R24 to R26: what one step request does, under any choice
of the parameters of R6 and under this machine's. Step.lean only calls it. -/

namespace Sys2Proof.Machine

/-- The handler of the decoded word: an instruction's meaning, or R192's no-op for a word the decoder rejects. -/
def runDecoded (d : Except Unrecognized Instr) (s : State) : Result :=
  match d with
  | .ok i => exec i s
  | .error _ => execUnrecognized s

/-- The six lines of R24 from any program counter: fetch, decode, copy, default advance, handler, commit. -/
def cycleWith (p : Parameters) (s : State) : Result := commitResult (runDecoded (p.decode s.fetch) s)

/-- The state invariant of R14, "always a multiple of 4". -/
def pcAligned (a : Addr) : Bool := a.toNat % 4 == 0

/-- The memory calls of R24's sequence: the fetch, then the data accesses (R228). -/
def cycleCalls (p : Parameters) (s : State) : List MemCall :=
  .read s.programCounter :: decodedCalls (p.decode s.fetch) s

/-- One step request. A halted machine changes nothing (R26, decision D11); a running one whose program counter
is not a multiple of 4 is refused (R182, 90_conflicts.md C3, log entry 3), and so is one whose step would touch a
byte outside MEM_VALID (R57, 93_implementation_defined.md U6, log entry 4); any other runs R24's sequence. -/
def stepWith (p : Parameters) (s : State) : Result :=
  if s.halted then .next s
  else if pcAligned s.programCounter then
    match firstOutside p.memValid (cycleCalls p s) with
    | some a => .refused (.outsideMemory a)
    | none => cycleWith p s
  else .refused (.misalignedProgramCounter s.programCounter)

/-- R24's sequence on this machine. -/
def cycle (s : State) : Result := cycleWith Parameters.default s

/-- One step request of this machine: MEM_VALID is every address, so nothing is refused for it. -/
def requestStep (s : State) : Result := stepWith Parameters.default s

end Sys2Proof.Machine
end

