-- ==== Sys2Proof/Machine/Step.lean ====
section
/-! DEFINITION. The step of the machine, and the placing of an instruction where it fetches. -/

namespace Sys2Proof.Machine

/-- One step request (R24, R26, R28). -/
def step (s : State) : Host.Outcome State Fault Refusal := requestStep s

/-- `s` with the instruction of bits `w` (those at `nbits` and above 0) stored at the program counter, as the
loader places a program's words (R226): the four bytes, least significant first (R43). -/
def State.withFetchWord (s : State) (nbits w : Nat) : State :=
  s.setMemory (s.memory.writeWord s.programCounter (BitVec.ofNat 32 (w % 2 ^ nbits)))

end Sys2Proof.Machine
end

