-- ==== Sys2Proof/Machine/Report.lean ====
section
/-! DEFINITION. What the CORE shows its collaborators beside the new state (spec/10_state.md rule R28): the decoded
kind of a step, and the `read_word` and `write_word` calls the memory collaborator sees, in order (R228); under any
choice of the parameters of R6 and under this machine's. -/

namespace Sys2Proof.Machine

/-- The step request runs R24's sequence: the machine is running, its program counter aligned and every byte the
step touches in MEM_VALID. -/
def runsCycle (p : Parameters) (s : State) : Bool :=
  !s.halted && pcAligned s.programCounter && (firstOutside p.memValid (cycleCalls p s)).isNone

/-- The record reported for a step: `none` when the step fetches nothing (R26) or is refused. -/
def stepRecordWith (p : Parameters) (s : State) : Option DecodedInstruction :=
  if runsCycle p s then some (p.decodeRecord s.fetch) else none

/-- Every memory call of a step; none when nothing is fetched (R26) or the step is refused. -/
def stepCallsWith (p : Parameters) (s : State) : List MemCall := if runsCycle p s then cycleCalls p s else []

/-- The record this machine reports. -/
def stepRecord (s : State) : Option DecodedInstruction := stepRecordWith Parameters.default s

/-- The tag "the caller [can] observe ... via the returned tag" (R28, R192). -/
def stepKind (s : State) : Option Kind := (stepRecord s).map DecodedInstruction.kind

/-- The memory calls of this machine's step. -/
def stepCalls (s : State) : List MemCall := stepCallsWith Parameters.default s

end Sys2Proof.Machine
end

