-- ==== Sys2Proof/Safety.lean ====
section
/-! DEFINITION. The terms the statements use: the invariant of the machine, a safe step, what of an instruction the
spec classifies (its destination, whether it sets flags, reads them, stores, branches), and the frames: what a
step changed, with everything else unchanged. A frame names the program counter, every register, both flags, the
halted bit and every byte of memory; nothing else is state. -/

namespace Sys2Proof.Machine

/-! ### Invariants and safe steps -/

/-- The machine between steps: the store is in canonical form, and the committed register 31 is 0 (R25). -/
def State.Inv (s : State) : Prop := s.memory.wf = true ∧ s.registers[31] = 0

/-- A step request is safe when it answers a next state: no refusal (there is no fault). -/
def State.StepSafe (s : State) : Prop := ∃ t, step s = .next t

/-- What a step request needs to be safe: the machine is halted, or its program counter is a multiple of 4 (the
side condition 93_implementation_defined.md U4 asks of a proof). -/
def State.Steppable (s : State) : Prop := s.halted = true ∨ s.programCounter.toNat % 4 = 0

/-! ### What the spec says of each instruction -/

/-- The register an instruction writes (R13): exactly one for a kind with a destination, none for the others. -/
def destination : Instr → Option RegIdx
  | .addImm rd _ _ _ | .addsImm rd _ _ _ | .subImm rd _ _ _ | .subsImm rd _ _ _ => some rd
  | .addReg rd _ _ | .addsReg rd _ _ | .subReg rd _ _ | .subsReg rd _ _ => some rd
  | .andsReg rd _ _ | .eorReg rd _ _ | .orrReg rd _ _ | .mul rd _ _ => some rd
  | .movz rd _ | .lslImm rd _ _ | .lsrImm rd _ _ => some rd
  | .ldur rd _ _ | .ldurb rd _ _ | .ldurh rd _ _ => some rd
  | .cmpImm _ _ _ | .cmpReg _ _ => none
  | .stur _ _ _ | .sturb _ _ _ | .sturh _ _ _ => none
  | .b _ | .br _ | .cbz _ _ | .cbnz _ _ => none
  | .bEq _ | .bNe _ | .bGe _ | .bLt _ | .bGt _ | .bLe _ => none
  | .hlt => none

/-- The seven flag writers of R20. -/
def setsFlags : Instr → Bool
  | .addsImm _ _ _ _ | .subsImm _ _ _ _ | .cmpImm _ _ _ => true
  | .addsReg _ _ _ | .subsReg _ _ _ | .cmpReg _ _ | .andsReg _ _ _ => true
  | .addImm _ _ _ _ | .subImm _ _ _ _ | .addReg _ _ _ | .subReg _ _ _ => false
  | .eorReg _ _ _ | .orrReg _ _ _ | .mul _ _ _ | .movz _ _ | .lslImm _ _ _ | .lsrImm _ _ _ => false
  | .stur _ _ _ | .sturb _ _ _ | .sturh _ _ _ | .ldur _ _ _ | .ldurb _ _ _ | .ldurh _ _ _ => false
  | .b _ | .br _ | .cbz _ _ | .cbnz _ _ => false
  | .bEq _ | .bNe _ | .bGe _ | .bLt _ | .bGt _ | .bLe _ => false
  | .hlt => false

/-- The 64-bit result a flag writer's `SetNZ` takes its flags from (R112, R114, R115, R122, R124 to R126). -/
def flagResult (s : State) : Instr → Option Doubleword
  | .addsImm _ rn shift imm12 => some (s.readReg rn + arithImmediate shift imm12)
  | .subsImm _ rn shift imm12 | .cmpImm rn shift imm12 => some (s.readReg rn - arithImmediate shift imm12)
  | .addsReg _ rn rm => some (s.readReg rn + s.readReg rm)
  | .subsReg _ rn rm | .cmpReg rn rm => some (s.readReg rn - s.readReg rm)
  | .andsReg _ rn rm => some (s.readReg rn &&& s.readReg rm)
  | .addImm _ _ _ _ | .subImm _ _ _ _ | .addReg _ _ _ | .subReg _ _ _ => none
  | .eorReg _ _ _ | .orrReg _ _ _ | .mul _ _ _ | .movz _ _ | .lslImm _ _ _ | .lsrImm _ _ _ => none
  | .stur _ _ _ | .sturb _ _ _ | .sturh _ _ _ | .ldur _ _ _ | .ldurb _ _ _ | .ldurh _ _ _ => none
  | .b _ | .br _ | .cbz _ _ | .cbnz _ _ => none
  | .bEq _ | .bNe _ | .bGe _ | .bLt _ | .bGt _ | .bLe _ => none
  | .hlt => none

/-- "Who reads the flags: only the six conditional branches" (R20). -/
def readsFlags : Instr → Bool
  | .bEq _ | .bNe _ | .bGe _ | .bLt _ | .bGt _ | .bLe _ => true
  | .addImm _ _ _ _ | .addsImm _ _ _ _ | .subImm _ _ _ _ | .subsImm _ _ _ _ | .cmpImm _ _ _ => false
  | .addReg _ _ _ | .addsReg _ _ _ | .subReg _ _ _ | .subsReg _ _ _ | .cmpReg _ _ => false
  | .andsReg _ _ _ | .eorReg _ _ _ | .orrReg _ _ _ | .mul _ _ _ => false
  | .movz _ _ | .lslImm _ _ _ | .lsrImm _ _ _ => false
  | .stur _ _ _ | .sturb _ _ _ | .sturh _ _ _ | .ldur _ _ _ | .ldurb _ _ _ | .ldurh _ _ _ => false
  | .b _ | .br _ | .cbz _ _ | .cbnz _ _ => false
  | .hlt => false

/-- The bytes a store writes: its first address and how many (R65); none for every other kind. An odd halfword
address names the halfword below it (R46). -/
def storedBytes (s : State) : Instr → Option (Addr × Nat)
  | .stur _ rn imm9 => some (effectiveAddress s rn imm9, 8)
  | .sturb _ rn imm9 => some (effectiveAddress s rn imm9, 1)
  | .sturh _ rn imm9 => some (effectiveAddress s rn imm9 &&& ~~~1#64, 2)
  | .addImm _ _ _ _ | .addsImm _ _ _ _ | .subImm _ _ _ _ | .subsImm _ _ _ _ | .cmpImm _ _ _ => none
  | .addReg _ _ _ | .addsReg _ _ _ | .subReg _ _ _ | .subsReg _ _ _ | .cmpReg _ _ => none
  | .andsReg _ _ _ | .eorReg _ _ _ | .orrReg _ _ _ | .mul _ _ _ => none
  | .movz _ _ | .lslImm _ _ _ | .lsrImm _ _ _ => none
  | .ldur _ _ _ | .ldurb _ _ _ | .ldurh _ _ _ => none
  | .b _ | .br _ | .cbz _ _ | .cbnz _ _ => none
  | .bEq _ | .bNe _ | .bGe _ | .bLt _ | .bGt _ | .bLe _ => none
  | .hlt => none

/-- The ten kinds that may write the program counter (R15). -/
def isBranch : Instr → Bool
  | .b _ | .br _ | .cbz _ _ | .cbnz _ _ => true
  | .bEq _ | .bNe _ | .bGe _ | .bLt _ | .bGt _ | .bLe _ => true
  | .addImm _ _ _ _ | .addsImm _ _ _ _ | .subImm _ _ _ _ | .subsImm _ _ _ _ | .cmpImm _ _ _ => false
  | .addReg _ _ _ | .addsReg _ _ _ | .subReg _ _ _ | .subsReg _ _ _ | .cmpReg _ _ => false
  | .andsReg _ _ _ | .eorReg _ _ _ | .orrReg _ _ _ | .mul _ _ _ => false
  | .movz _ _ | .lslImm _ _ _ | .lsrImm _ _ _ => false
  | .stur _ _ _ | .sturb _ _ _ | .sturh _ _ _ | .ldur _ _ _ | .ldurb _ _ _ | .ldurh _ _ _ => false
  | .hlt => false

/-! ### Frames -/

/-- Every register reads as before. -/
def SameRegisters (s t : State) : Prop := ∀ r : RegIdx, t.readReg r = s.readReg r

/-- Every byte of memory reads as before. -/
def SameMemory (s t : State) : Prop := ∀ a : Addr, t.memory.readByte a = s.memory.readByte a

/-- Register `rd` reads `v`, unless it is register 31, which drops the write; every other register reads as
before (R12). -/
def RegisterBecomes (s t : State) (rd : RegIdx) (v : Doubleword) : Prop :=
  ∀ r : RegIdx, t.readReg r = if r = rd ∧ r ≠ zeroReg then v else s.readReg r

/-- Z and N say of `r` what R19 says: it is 0, it is negative as a signed number. -/
def FlagsSay (t : State) (r : Doubleword) : Prop :=
  t.flags.zero = decide (r = 0) ∧ t.flags.negative = decide (r.toInt < 0)

/-- The instruction wrote `v` to `rd` and did nothing else but advance. -/
def WritesRegister (s t : State) (rd : RegIdx) (v : Doubleword) : Prop :=
  RegisterBecomes s t rd v ∧ t.flags = s.flags ∧ t.halted = s.halted ∧
    t.programCounter = s.programCounter + 4 ∧ SameMemory s t

/-- The instruction wrote `v` to `rd`, set the flags from it and did nothing else but advance. -/
def WritesRegisterAndFlags (s t : State) (rd : RegIdx) (v : Doubleword) : Prop :=
  RegisterBecomes s t rd v ∧ FlagsSay t v ∧ t.halted = s.halted ∧
    t.programCounter = s.programCounter + 4 ∧ SameMemory s t

/-- The instruction set the flags from `v` and did nothing else but advance. -/
def WritesFlags (s t : State) (v : Doubleword) : Prop :=
  SameRegisters s t ∧ FlagsSay t v ∧ t.halted = s.halted ∧
    t.programCounter = s.programCounter + 4 ∧ SameMemory s t

/-- The instruction stored `n` bytes, byte `k` of them `v[8k+7:8k]` at `a + k` modulo 2^64, and did nothing else
but advance. -/
def StoresBytes (s t : State) (a : Addr) (n : Nat) (v : Doubleword) : Prop :=
  SameRegisters s t ∧ t.flags = s.flags ∧ t.halted = s.halted ∧
    t.programCounter = s.programCounter + 4 ∧
    ∀ b : Addr, t.memory.readByte b =
      if (b - a).toNat < n then v.extractLsb' (8 * (b - a).toNat) 8 else s.memory.readByte b

/-- The instruction set the program counter and did nothing else (R170). -/
def JumpsTo (s t : State) (target : Addr) : Prop :=
  t.programCounter = target ∧ SameRegisters s t ∧ t.flags = s.flags ∧ t.halted = s.halted ∧ SameMemory s t

/-! ### Words and values the statements name -/

/-- The value of a format I immediate (R80): `imm12`, times 4096 when the shift code is 1. -/
def immediateValue (shift : BitVec 2) (imm12 : BitVec 12) : Nat :=
  if shift.toNat = 1 then imm12.toNat * 4096 else imm12.toNat

/-- The word of the B.cond family with an offset field and a condition code (R175 to R180):
`0x54000000 | imm19<<5 | cond`. -/
def conditionalWord (imm19 : BitVec 19) (cond : BitVec 4) : Word :=
  0x54000000 ||| imm19.setWidth 32 <<< 5 ||| cond.setWidth 32

/-- `i` is the instruction of a condition code, taken exactly when the flags of Current satisfy a predicate:
then the program counter is `pc` plus four times the signed offset, else `pc + 4`; nothing else changes. -/
def ConditionalBranch (i : Instr) (cond : BitVec 4) (imm19 : BitVec 19) (taken : Flags → Prop) : Prop :=
  decode (conditionalWord imm19 cond) = .ok i ∧
  ∀ s : State,
    (taken s.flags → ∃ t, exec i s = .next t ∧
      JumpsTo s t (BitVec.ofInt 64 (s.programCounter.toNat + 4 * imm19.toInt))) ∧
    (¬ taken s.flags → ∃ t, exec i s = .next t ∧ JumpsTo s t (s.programCounter + 4))

end Sys2Proof.Machine
end

