-- ==== Sys2Proof/Certificates/Slice0/Obligations.lean ====
section
/-! DEFINITION. The statements about this model, taken from the numbered rules of spec/. Each names the rule it
formalises, or the sections it rests on where the rule's own text is marked as the spec's decision (wrap modulo
2^64 is D4, byte order D5, the byte store D6, the no-op of a halted step D11, the reset values D12, BR's register
field D18, ANDS setting the flags D2).

Results are written in exact arithmetic (Nat, Int, single bits) and narrowed once, not through the functions the
meanings use; frames are the predicates of Sys2Proof/Safety.lean. -/

open Sys2Proof Sys2Proof.Machine

/-! ### The decoder and the encoder -/

/-- One or two words of each family, written out in spec/95_test_vectors.md, and two that are UNRECOGNIZED. -/
def Obligations.SpecWordsDecode : Prop :=
  decode 0xB1002820 = .ok (.addsImm 0 1 0 10) ∧
  decode 0x917FFC20 = .ok (.addImm 0 1 1 0xFFF) ∧
  decode 0xEB02003F = .ok (.cmpReg 1 2) ∧
  decode 0x9B027C20 = .ok (.mul 0 1 2) ∧
  decode 0xD2A24680 = .ok (.movz 0 0x1234) ∧
  decode 0xD37CEC20 = .ok (.lslImm 0 1 4) ∧
  decode 0xD344FC20 = .ok (.lsrImm 0 1 4) ∧
  decode 0xF81F8022 = .ok (.stur 2 1 0x1F8) ∧
  decode 0x384FF020 = .ok (.ldurb 0 1 0x0FF) ∧
  decode 0xD61F0009 = .ok (.br 9) ∧
  decode 0x54FFFFC1 = .ok (.bNe 0x7FFFE) ∧
  decode 0xD4400000 = .ok .hlt ∧
  decode 0xD503201F = .error .noTableEntry ∧
  decode 0x54000202 = .error .unsupportedCondition

/-- DECODE AND ENCODE AGREE: every well-formed instruction, with every operand at every value, is what its word
decodes to, for both values of BR_RN_LSB (R74, R76, R80 to R87, R94). -/
def Obligations.DecodeOfEncode : Prop :=
  ∀ (lsb : BrRnLsb) (i : Instr), i.wellFormed = true → decodeWith lsb (encodeWith lsb i) = .ok i

/-- No word decodes to a subtract-with-flags whose destination is register 31: the compare rows take those words
first (R75, R77, R114, R124). -/
def Obligations.DecodedInstructionsAreWellFormed : Prop :=
  ∀ (lsb : BrRnLsb) (w : Word) (i : Instr), decodeWith lsb w = .ok i → i.wellFormed = true

/-- The list of R91 is complete: a recognized word and the encoder's word for its instruction differ only in bits
that R91 calls ignored. -/
def Obligations.EncodeRestoresEveryReadBit : Prop :=
  ∀ (w : Word) (i : Instr), decode w = .ok i → (w ^^^ encode i) &&& ~~~(ignoredBits i) = 0

/-- The ordered table with its resolver (R74, R76, R87) and the 34 rows of spec/opcode_table.json name the same
kind for every one of the 2^32 words. -/
def Obligations.DecoderAgreesWithOpcodeTable : Prop :=
  ∀ w : Word, (decodeRecord w).kind = opcodeKind opcodeRows w

/-- R77: of the 406 pairs of rows exactly three can match one word: (1, 7), (12, 20) and (13, 26). -/
def Obligations.ExactlyThreePairsOfRowsOverlap : Prop :=
  (decodeTable .bit0).length = 29 ∧
  ∀ (j k : Nat) (early late : TableRow), j < k → (decodeTable .bit0)[j]? = some early →
    (decodeTable .bit0)[k]? = some late →
    ((∃ w : Word, early.matchesWord w = true ∧ late.matchesWord w = true) ↔
      (j + 1, k + 1) = (1, 7) ∨ (j + 1, k + 1) = (12, 20) ∨ (j + 1, k + 1) = (13, 26))

/-- The two forms of the decoder's answer agree: the record of R71 is the decoded instruction's record, and the
UNRECOGNIZED record exactly for the words the machine's decoder rejects. -/
def Obligations.RecordIsThatOfTheDecodedInstruction : Prop :=
  ∀ w : Word,
    (∀ i, decode w = .ok i → decodeRecord w = i.record ∧ (decodeRecord w).kind = i.kind) ∧
    (∀ e, decode w = .error e → decodeRecord w = unrecognizedRecord) ∧
    ((decodeRecord w).kind = .unrecognized → ∃ e, decode w = .error e)

/-- The condition codes of R87: six kinds with their offset, ten rejections with every field 0. -/
def Obligations.ConditionCodesResolve : Prop :=
  ∀ (imm19 : BitVec 19) (cond : BitVec 4),
    (cond = 0x0 → decode (conditionalWord imm19 cond) = .ok (.bEq imm19)) ∧
    (cond = 0x1 → decode (conditionalWord imm19 cond) = .ok (.bNe imm19)) ∧
    (cond = 0xA → decode (conditionalWord imm19 cond) = .ok (.bGe imm19)) ∧
    (cond = 0xB → decode (conditionalWord imm19 cond) = .ok (.bLt imm19)) ∧
    (cond = 0xC → decode (conditionalWord imm19 cond) = .ok (.bGt imm19)) ∧
    (cond = 0xD → decode (conditionalWord imm19 cond) = .ok (.bLe imm19)) ∧
    (cond ∉ [0x0#4, 0x1#4, 0xA#4, 0xB#4, 0xC#4, 0xD#4] →
      decode (conditionalWord imm19 cond) = .error .unsupportedCondition ∧
      decodeRecord (conditionalWord imm19 cond) = ⟨.unrecognized, 0, 0, 0, 0, 0⟩)

/-- The words of the seven layouts of R78, field by field as numbers (the opcode bits are decision D1). -/
def Obligations.EncodedWordsHaveTheirLayout : Prop :=
  ∀ (rd rn rm : RegIdx) (shift : BitVec 2) (imm12 : BitVec 12) (imm16 : BitVec 16) (count : BitVec 6)
    (imm9 : BitVec 9) (imm19 : BitVec 19) (imm26 : BitVec 26),
    (encode (.addsImm rd rn shift imm12)).toNat =
      0b10110001 * 2 ^ 24 + shift.toNat * 2 ^ 22 + imm12.toNat * 2 ^ 10 + rn.toNat * 2 ^ 5 + rd.toNat ∧
    (encode (.mul rd rn rm)).toNat =
      0b10011011000 * 2 ^ 21 + rm.toNat * 2 ^ 16 + 0b011111 * 2 ^ 10 + rn.toNat * 2 ^ 5 + rd.toNat ∧
    (encode (.movz rd imm16)).toNat = 0b110100101 * 2 ^ 23 + imm16.toNat * 2 ^ 5 + rd.toNat ∧
    (encode (.lsrImm rd rn count)).toNat =
      0b1101001101 * 2 ^ 22 + count.toNat * 2 ^ 16 + 0b111111 * 2 ^ 10 + rn.toNat * 2 ^ 5 + rd.toNat ∧
    (encode (.ldurh rd rn imm9)).toNat =
      0b01 * 2 ^ 30 + 0b111000 * 2 ^ 24 + 0b01 * 2 ^ 22 + imm9.toNat * 2 ^ 12 + rn.toNat * 2 ^ 5 + rd.toNat ∧
    (encode (.b imm26)).toNat = 0b000101 * 2 ^ 26 + imm26.toNat ∧
    (encode (.cbnz rd imm19)).toNat = 0b1011010 * 2 ^ 25 + 2 ^ 24 + imm19.toNat * 2 ^ 5 + rd.toNat ∧
    (encode (.bGt imm19)).toNat = 0b01010100 * 2 ^ 24 + imm19.toNat * 2 ^ 5 + 0xC ∧
    (encode (.br rn)).toNat = 0b1101011000011111000000 * 2 ^ 10 + rn.toNat ∧
    (encode .hlt).toNat = 0b11010100010 * 2 ^ 21

/-! ### The six field extractors -/

/-- R80, with the fields of the word as numbers. -/
def Obligations.ArithImmediateExtractor : Prop :=
  ∀ w : Word, (decodeRecord w).kind ∈ [Kind.addImm, .addsImm, .subImm, .subsImm, .cmpImm] →
    (decodeRecord w).rd.toNat = w.toNat % 32 ∧
    (decodeRecord w).rn.toNat = w.toNat / 2 ^ 5 % 32 ∧
    (decodeRecord w).shift.toNat = w.toNat / 2 ^ 22 % 4 ∧
    (decodeRecord w).immediate.toNat =
      (if w.toNat / 2 ^ 22 % 4 = 1 then w.toNat / 2 ^ 10 % 4096 * 2 ^ 12 else w.toNat / 2 ^ 10 % 4096)

/-- R81. -/
def Obligations.RegisterExtractor : Prop :=
  ∀ w : Word, (decodeRecord w).kind ∈
      [Kind.addReg, .addsReg, .subReg, .subsReg, .cmpReg, .andsReg, .eorReg, .orrReg, .mul] →
    (decodeRecord w).rd.toNat = w.toNat % 32 ∧
    (decodeRecord w).rn.toNat = w.toNat / 2 ^ 5 % 32 ∧
    (decodeRecord w).rm.toNat = w.toNat / 2 ^ 16 % 32

/-- R82: the half-word selector bits[22:21] is read by nothing. -/
def Obligations.MoveWideExtractor : Prop :=
  ∀ w : Word, (decodeRecord w).kind = .movz →
    (decodeRecord w).rd.toNat = w.toNat % 32 ∧
    (decodeRecord w).immediate.toNat = w.toNat / 2 ^ 5 % 2 ^ 16

/-- R83: opposite readings of the rotate field. -/
def Obligations.ShiftExtractor : Prop :=
  ∀ w : Word,
    ((decodeRecord w).kind = .lslImm →
      (decodeRecord w).rd.toNat = w.toNat % 32 ∧ (decodeRecord w).rn.toNat = w.toNat / 2 ^ 5 % 32 ∧
      (decodeRecord w).shift.toNat = (64 - w.toNat / 2 ^ 16 % 64) % 64) ∧
    ((decodeRecord w).kind = .lsrImm →
      (decodeRecord w).rd.toNat = w.toNat % 32 ∧ (decodeRecord w).rn.toNat = w.toNat / 2 ^ 5 % 32 ∧
      (decodeRecord w).shift.toNat = w.toNat / 2 ^ 16 % 64)

/-- R84: the offset is the signed 9-bit field, -256 to 255. -/
def Obligations.MemoryExtractor : Prop :=
  ∀ w : Word, (decodeRecord w).kind ∈ [Kind.stur, .sturb, .sturh, .ldur, .ldurb, .ldurh] →
    (decodeRecord w).rd.toNat = w.toNat % 32 ∧
    (decodeRecord w).rn.toNat = w.toNat / 2 ^ 5 % 32 ∧
    (decodeRecord w).immediate.toInt =
      (if w.toNat / 2 ^ 12 % 512 < 256 then ((w.toNat / 2 ^ 12 % 512 : Nat) : Int)
       else ((w.toNat / 2 ^ 12 % 512 : Nat) : Int) - 512)

/-- R85 at the default BR_RN_LSB (90_conflicts.md C2, decision D18): signed fields times 4, exactly. -/
def Obligations.ControlFlowExtractor : Prop :=
  ∀ w : Word,
    ((decodeRecord w).kind = .b → (decodeRecord w).immediate.toInt =
      4 * (if w.toNat % 2 ^ 26 < 2 ^ 25 then ((w.toNat % 2 ^ 26 : Nat) : Int)
           else ((w.toNat % 2 ^ 26 : Nat) : Int) - 2 ^ 26)) ∧
    ((decodeRecord w).kind = .br → (decodeRecord w).rn.toNat = w.toNat % 32) ∧
    ((decodeRecord w).kind ∈ [Kind.cbz, .cbnz] → (decodeRecord w).rd.toNat = w.toNat % 32) ∧
    ((decodeRecord w).kind ∈ [Kind.cbz, .cbnz, .bEq, .bNe, .bGe, .bLt, .bGt, .bLe] →
      (decodeRecord w).immediate.toInt =
        4 * (if w.toNat / 2 ^ 5 % 2 ^ 19 < 2 ^ 18 then ((w.toNat / 2 ^ 5 % 2 ^ 19 : Nat) : Int)
             else ((w.toNat / 2 ^ 5 % 2 ^ 19 : Nat) : Int) - 2 ^ 19))

/-- R86 and R88 (decision D17): a field the kind's extractor does not set is 0 in the record. -/
def Obligations.UnsetRecordFieldsAreZero : Prop :=
  ∀ w : Word,
    ((decodeRecord w).kind ∈ [Kind.hlt, .unrecognized] → (decodeRecord w).rd = 0) ∧
    ((decodeRecord w).kind ∈ [Kind.movz, .b, .cbz, .cbnz, .bEq, .bNe, .bGe, .bLt, .bGt, .bLe, .hlt,
      .unrecognized] → (decodeRecord w).rn = 0) ∧
    ((decodeRecord w).kind ∉ [Kind.addReg, .addsReg, .subReg, .subsReg, .cmpReg, .andsReg, .eorReg, .orrReg,
      .mul] → (decodeRecord w).rm = 0) ∧
    ((decodeRecord w).kind ∈ [Kind.addReg, .addsReg, .subReg, .subsReg, .cmpReg, .andsReg, .eorReg, .orrReg,
      .mul, .lslImm, .lsrImm, .br, .hlt, .unrecognized] → (decodeRecord w).immediate = 0) ∧
    ((decodeRecord w).kind ∉ [Kind.addImm, .addsImm, .subImm, .subsImm, .cmpImm, .lslImm, .lsrImm] →
      (decodeRecord w).shift = 0) ∧
    ((decodeRecord w).kind ∈ [Kind.b, .br, .bEq, .bNe, .bGe, .bLt, .bGt, .bLe] → (decodeRecord w).rd = 0)

/-! ### Arithmetic, logic, moves and shifts -/

/-- ADD_IMM and ADDS_IMM (R110 to R112, R19; the wrap modulo 2^64 is decision D4): complete from every state, for
every register and every shift code. -/
def Obligations.AddImmediateResult : Prop :=
  ∀ (rd rn : RegIdx) (shift : BitVec 2) (imm12 : BitVec 12) (s : State),
    (∃ t, exec (.addImm rd rn shift imm12) s = .next t ∧
      WritesRegister s t rd (BitVec.ofNat 64 ((s.readReg rn).toNat + immediateValue shift imm12))) ∧
    (∃ t, exec (.addsImm rd rn shift imm12) s = .next t ∧
      WritesRegisterAndFlags s t rd (BitVec.ofNat 64 ((s.readReg rn).toNat + immediateValue shift imm12)))

/-- SUB_IMM, SUBS_IMM and CMP_IMM (R110, R113 to R115, R19; the wrap is decision D4). -/
def Obligations.SubtractImmediateResult : Prop :=
  ∀ (rd rn : RegIdx) (shift : BitVec 2) (imm12 : BitVec 12) (s : State),
    (∃ t, exec (.subImm rd rn shift imm12) s = .next t ∧
      WritesRegister s t rd (BitVec.ofInt 64 ((s.readReg rn).toInt - immediateValue shift imm12))) ∧
    (∃ t, exec (.subsImm rd rn shift imm12) s = .next t ∧
      WritesRegisterAndFlags s t rd (BitVec.ofInt 64 ((s.readReg rn).toInt - immediateValue shift imm12))) ∧
    (∃ t, exec (.cmpImm rn shift imm12) s = .next t ∧
      WritesFlags s t (BitVec.ofInt 64 ((s.readReg rn).toInt - immediateValue shift imm12)))

/-- ADD_REG and ADDS_REG (R120 to R122, R19; the wrap is decision D4). -/
def Obligations.AddRegisterResult : Prop :=
  ∀ (rd rn rm : RegIdx) (s : State),
    (∃ t, exec (.addReg rd rn rm) s = .next t ∧
      WritesRegister s t rd (BitVec.ofInt 64 ((s.readReg rn).toInt + (s.readReg rm).toInt))) ∧
    (∃ t, exec (.addsReg rd rn rm) s = .next t ∧
      WritesRegisterAndFlags s t rd (BitVec.ofInt 64 ((s.readReg rn).toInt + (s.readReg rm).toInt)))

/-- SUB_REG, SUBS_REG and CMP_REG (R120, R123 to R125, R19; the wrap is decision D4). -/
def Obligations.SubtractRegisterResult : Prop :=
  ∀ (rd rn rm : RegIdx) (s : State),
    (∃ t, exec (.subReg rd rn rm) s = .next t ∧
      WritesRegister s t rd (BitVec.ofInt 64 ((s.readReg rn).toInt - (s.readReg rm).toInt))) ∧
    (∃ t, exec (.subsReg rd rn rm) s = .next t ∧
      WritesRegisterAndFlags s t rd (BitVec.ofInt 64 ((s.readReg rn).toInt - (s.readReg rm).toInt))) ∧
    (∃ t, exec (.cmpReg rn rm) s = .next t ∧
      WritesFlags s t (BitVec.ofInt 64 ((s.readReg rn).toInt - (s.readReg rm).toInt)))

/-- ANDS_REG (R126), flags included (decision D2, log entry 6). -/
def Obligations.AndsResult : Prop :=
  ∀ (rd rn rm : RegIdx) (s : State), ∃ t v, exec (.andsReg rd rn rm) s = .next t ∧
    (∀ k, k < 64 → v.getLsbD k = ((s.readReg rn).getLsbD k && (s.readReg rm).getLsbD k)) ∧
    WritesRegisterAndFlags s t rd v

/-- EOR_REG (R127) and ORR_REG (R128): the words, the results bit by bit, and no flag written. -/
def Obligations.ExclusiveOrAndOrResult : Prop :=
  ∀ (rd rn rm : RegIdx) (s : State),
    decode (0xCA000000 ||| rm.setWidth 32 <<< 16 ||| rn.setWidth 32 <<< 5 ||| rd.setWidth 32) =
      .ok (.eorReg rd rn rm) ∧
    decode (0xAA000000 ||| rm.setWidth 32 <<< 16 ||| rn.setWidth 32 <<< 5 ||| rd.setWidth 32) =
      .ok (.orrReg rd rn rm) ∧
    (∃ t v, exec (.eorReg rd rn rm) s = .next t ∧
      (∀ k, k < 64 → v.getLsbD k = xor ((s.readReg rn).getLsbD k) ((s.readReg rm).getLsbD k)) ∧
      WritesRegister s t rd v) ∧
    (∃ t v, exec (.orrReg rd rn rm) s = .next t ∧
      (∀ k, k < 64 → v.getLsbD k = ((s.readReg rn).getLsbD k || (s.readReg rm).getLsbD k)) ∧
      WritesRegister s t rd v)

/-- MUL (R129): the low 64 bits of the product, the same for the signed and the unsigned reading; a multiply-add
word is UNRECOGNIZED. -/
def Obligations.MultiplyResult : Prop :=
  (∀ (rd rn rm : RegIdx) (s : State),
    decode (0x9B007C00 ||| rm.setWidth 32 <<< 16 ||| rn.setWidth 32 <<< 5 ||| rd.setWidth 32) =
      .ok (.mul rd rn rm) ∧
    ∃ t, exec (.mul rd rn rm) s = .next t ∧
      WritesRegister s t rd (BitVec.ofNat 64 ((s.readReg rn).toNat * (s.readReg rm).toNat)) ∧
      WritesRegister s t rd (BitVec.ofInt 64 ((s.readReg rn).toInt * (s.readReg rm).toInt))) ∧
  (∀ w : Word, w &&& 0xFFE08000 = 0x9B000000 → w &&& 0x00007C00 ≠ 0x00007C00 →
    decode w = .error .noTableEntry)

/-- MOVZ (R140): every half-word selector gives the same instruction, the register becomes the 16-bit immediate,
and the keep, negate and 32-bit forms are UNRECOGNIZED. -/
def Obligations.MoveWideResult : Prop :=
  (∀ (rd : RegIdx) (hw : BitVec 2) (imm16 : BitVec 16) (s : State),
    decode (0xD2800000 ||| hw.setWidth 32 <<< 21 ||| imm16.setWidth 32 <<< 5 ||| rd.setWidth 32) =
      .ok (.movz rd imm16) ∧
    ∃ t, exec (.movz rd imm16) s = .next t ∧ WritesRegister s t rd (BitVec.ofNat 64 imm16.toNat)) ∧
  (∀ w : Word, w &&& 0xFF800000 = 0xF2800000 ∨ w &&& 0xFF800000 = 0x92800000 ∨
      w &&& 0xFF800000 = 0x52800000 → decode w = .error .noTableEntry)

/-- LSL_IMM (R145): every value of bits[15:10] but 63 gives the left shift by `(64 - rotate) mod 64`; zeros enter
at bit 0 and bits past bit 63 are lost. -/
def Obligations.LeftShiftResult : Prop :=
  ∀ (rd rn : RegIdx) (rotate spare count : BitVec 6) (s : State),
    (spare ≠ 63 →
      decode (0xD3400000 ||| rotate.setWidth 32 <<< 16 ||| spare.setWidth 32 <<< 10 ||| rn.setWidth 32 <<< 5 |||
        rd.setWidth 32) = .ok (.lslImm rd rn (BitVec.ofNat 6 (64 - rotate.toNat)))) ∧
    ∃ t, exec (.lslImm rd rn count) s = .next t ∧
      WritesRegister s t rd (BitVec.ofNat 64 ((s.readReg rn).toNat * 2 ^ count.toNat))

/-- LSR_IMM (R146): a logical shift of the unsigned value; the arithmetic shift's words are UNRECOGNIZED. -/
def Obligations.RightShiftResult : Prop :=
  (∀ (rd rn : RegIdx) (count : BitVec 6) (s : State),
    decode (0xD340FC00 ||| count.setWidth 32 <<< 16 ||| rn.setWidth 32 <<< 5 ||| rd.setWidth 32) =
      .ok (.lsrImm rd rn count) ∧
    ∃ t, exec (.lsrImm rd rn count) s = .next t ∧
      WritesRegister s t rd (BitVec.ofNat 64 ((s.readReg rn).toNat / 2 ^ count.toNat))) ∧
  (∀ w : Word, w &&& 0xFFC0FC00 = 0x9340FC00 → decode w = .error .noTableEntry)

/-! ### Loads, stores and the store -/

/-- STUR (R150, R151, R44, R52, R65; byte order D5, byte store D6): eight bytes at the effective address, which
is base plus signed offset modulo 2^64, at any alignment and across the top of the address space (R64). -/
def Obligations.StoreDoublewordBytes : Prop :=
  ∀ (rd rn : RegIdx) (imm9 : BitVec 9) (s : State),
    effectiveAddress s rn imm9 = BitVec.ofInt 64 ((s.readReg rn).toInt + imm9.toInt) ∧
    ∃ t, exec (.stur rd rn imm9) s = .next t ∧ StoresBytes s t (effectiveAddress s rn imm9) 8 (s.readReg rd)

/-- STURB (R150, R152, R50, R65; D5, D6): the one byte at the effective address; the other three bytes of the
word, and every other byte, keep their values. -/
def Obligations.StoreByteChangesOneByte : Prop :=
  ∀ (rd rn : RegIdx) (imm9 : BitVec 9) (s : State),
    ∃ t, exec (.sturb rd rn imm9) s = .next t ∧ StoresBytes s t (effectiveAddress s rn imm9) 1 (s.readReg rd)

/-- STURH (R150, R153, R51, R65; D5, D6, D21): the two bytes at the effective address with bit 0 cleared. -/
def Obligations.StoreHalfwordIgnoresAddressBitZero : Prop :=
  ∀ (rd rn : RegIdx) (imm9 : BitVec 9) (s : State),
    ∃ t, exec (.sturh rd rn imm9) s = .next t ∧
      StoresBytes s t (effectiveAddress s rn imm9 &&& ~~~1#64) 2 (s.readReg rd)

/-- LDUR (R150, R154, R49, R65; D5, D6): byte `k` of the register is the byte at the address plus `k`. -/
def Obligations.LoadDoublewordResult : Prop :=
  ∀ (rd rn : RegIdx) (imm9 : BitVec 9) (s : State),
    ∃ t v, exec (.ldur rd rn imm9) s = .next t ∧ WritesRegister s t rd v ∧
      ∀ k, k < 8 → v.extractLsb' (8 * k) 8 =
        s.memory.readByte (effectiveAddress s rn imm9 + BitVec.ofNat 64 k)

/-- LDURB and LDURH (R150, R155, R156, R47, R48, R65; D5, D21): zero-extended, bit 0 of a halfword address
ignored. -/
def Obligations.NarrowLoadsZeroExtend : Prop :=
  ∀ (rd rn : RegIdx) (imm9 : BitVec 9) (s : State),
    (∃ t, exec (.ldurb rd rn imm9) s = .next t ∧
      WritesRegister s t rd (BitVec.ofNat 64 (s.memory.readByte (effectiveAddress s rn imm9)).toNat)) ∧
    (∃ t, exec (.ldurh rd rn imm9) s = .next t ∧
      WritesRegister s t rd (BitVec.ofNat 64
        ((s.memory.readByte (effectiveAddress s rn imm9 &&& ~~~1#64)).toNat +
          256 * (s.memory.readByte ((effectiveAddress s rn imm9 &&& ~~~1#64) + 1)).toNat)))

/-- R157 (a): a doubleword stored and loaded at the same computed address is the exact value. -/
def Obligations.DoublewordStoreThenLoad : Prop :=
  ∀ (rd rn rd' rn' : RegIdx) (imm9 imm9' : BitVec 9) (s t u : State),
    exec (.stur rd rn imm9) s = .next t → exec (.ldur rd' rn' imm9') t = .next u →
    effectiveAddress t rn' imm9' = effectiveAddress s rn imm9 → rd' ≠ zeroReg →
    u.readReg rd' = s.readReg rd

/-- R157 (b) and (c): the low byte or halfword comes back zero-extended, also through an odd address. -/
def Obligations.NarrowStoreThenLoad : Prop :=
  (∀ (rd rn rd' rn' : RegIdx) (imm9 imm9' : BitVec 9) (s t u : State),
    exec (.sturb rd rn imm9) s = .next t → exec (.ldurb rd' rn' imm9') t = .next u →
    effectiveAddress t rn' imm9' = effectiveAddress s rn imm9 → rd' ≠ zeroReg →
    (u.readReg rd').toNat = (s.readReg rd).toNat % 2 ^ 8) ∧
  (∀ (rd rn rd' rn' : RegIdx) (imm9 imm9' : BitVec 9) (s t u : State),
    exec (.sturh rd rn imm9) s = .next t → exec (.ldurh rd' rn' imm9') t = .next u →
    effectiveAddress t rn' imm9' = effectiveAddress s rn imm9 → rd' ≠ zeroReg →
    (u.readReg rd').toNat = (s.readReg rd).toNat % 2 ^ 16)

/-- R62 (decision D14): a doubleword stored over the next instruction is what the very next step fetches. -/
def Obligations.NextFetchSeesTheStore : Prop :=
  ∀ (rd rn : RegIdx) (imm9 : BitVec 9) (s : State), s.halted = false → s.programCounter.toNat % 4 = 0 →
    decode s.fetch = .ok (.stur rd rn imm9) → effectiveAddress s rn imm9 = s.programCounter + 4 →
    ∃ t, step s = .next t ∧ t.programCounter = s.programCounter + 4 ∧
      t.fetch.toNat = (s.readReg rd).toNat % 2 ^ 32

/-- R228, R24, R41, R42: a step's memory is what its reported calls leave, there are at most three, and the first
is the fetch; a halted step makes none (R26). -/
def Obligations.ReportedCallsAreTheMemoryEffect : Prop :=
  ∀ s t : State, step s = .next t →
    t.memory = s.memory.replay (stepCalls s) ∧ (stepCalls s).length ≤ 3 ∧
    (s.halted = false → (stepCalls s).head? = some (.read s.programCounter)) ∧
    (s.halted = true → stepCalls s = [])

/-- Equal stores are equal data: two memories in canonical form that read alike at every address are one list. -/
def Obligations.CanonicalMemoriesThatReadAlikeAreEqual : Prop :=
  ∀ m n : Memory, m.wf = true → n.wf = true → (∀ a : Addr, m.readByte a = n.readByte a) → m = n

/-! ### Control flow -/

/-- B (R170, R171): the offset is relative to the branch itself; branch-with-link words are UNRECOGNIZED. -/
def Obligations.UnconditionalBranchTarget : Prop :=
  (∀ (imm26 : BitVec 26) (s : State),
    decode (0x14000000 ||| imm26.setWidth 32) = .ok (.b imm26) ∧
    ∃ t, exec (.b imm26) s = .next t ∧
      JumpsTo s t (BitVec.ofInt 64 (s.programCounter.toNat + 4 * imm26.toInt))) ∧
  (∀ w : Word, w &&& 0xFC000000 = 0x94000000 → decode w = .error .noTableEntry)

/-- BR (R172): the whole register becomes the program counter, unmasked and unchecked; the register is bits[4:0]
and bits[9:5] are ignored, the choice of 90_conflicts.md C2 (D18, log entry 5), or bits[9:5] with BR_RN_LSB = 5. -/
def Obligations.BranchToRegisterTarget : Prop :=
  ∀ (rn spare : RegIdx) (s : State),
    decodeWith .bit0 (0xD61F0000 ||| spare.setWidth 32 <<< 5 ||| rn.setWidth 32) = .ok (.br rn) ∧
    decodeWith .bit5 (0xD61F0000 ||| rn.setWidth 32 <<< 5) = .ok (.br rn) ∧
    ∃ t, exec (.br rn) s = .next t ∧ JumpsTo s t (s.readReg rn)

/-- CBZ (R173) and CBNZ (R174): all 64 bits are tested; the 32-bit form is UNRECOGNIZED. -/
def Obligations.CompareAndBranchTarget : Prop :=
  (∀ (rt : RegIdx) (imm19 : BitVec 19) (s : State),
    decode (0xB4000000 ||| imm19.setWidth 32 <<< 5 ||| rt.setWidth 32) = .ok (.cbz rt imm19) ∧
    decode (0xB5000000 ||| imm19.setWidth 32 <<< 5 ||| rt.setWidth 32) = .ok (.cbnz rt imm19) ∧
    (∃ t, exec (.cbz rt imm19) s = .next t ∧
      JumpsTo s t (if (s.readReg rt).toNat = 0 then BitVec.ofInt 64 (s.programCounter.toNat + 4 * imm19.toInt)
        else s.programCounter + 4)) ∧
    (∃ t, exec (.cbnz rt imm19) s = .next t ∧
      JumpsTo s t (if (s.readReg rt).toNat ≠ 0 then BitVec.ofInt 64 (s.programCounter.toNat + 4 * imm19.toInt)
        else s.programCounter + 4))) ∧
  (∀ w : Word, w &&& 0xFF000000 = 0x34000000 → decode w = .error .noTableEntry)

/-- B_EQ to B_LE (R175 to R180): each condition code, its predicate over the flags of Current for all four flag
states, and the target; nothing but the program counter is written (R170). -/
def Obligations.ConditionalBranchesFollowTheFlags : Prop :=
  ∀ imm19 : BitVec 19,
    ConditionalBranch (.bEq imm19) 0x0 imm19 (fun f => f.zero = true) ∧
    ConditionalBranch (.bNe imm19) 0x1 imm19 (fun f => f.zero = false) ∧
    ConditionalBranch (.bGe imm19) 0xA imm19 (fun f => f.negative = false) ∧
    ConditionalBranch (.bLt imm19) 0xB imm19 (fun f => f.negative = true) ∧
    ConditionalBranch (.bGt imm19) 0xC imm19 (fun f => f.zero = false ∧ f.negative = false) ∧
    ConditionalBranch (.bLe imm19) 0xD imm19 (fun f => f.zero = true ∨ f.negative = true)

/-! ### Halt, the unrecognized word, the step -/

/-- HLT (R190): every word of the shape halts, `halted` is set, the program counter is `pc + 4`, nothing else
changes; the other exception-generating words of the A64 group are UNRECOGNIZED. -/
def Obligations.HaltSetsHaltedOnly : Prop :=
  (∀ (imm16 : BitVec 16) (s : State),
    decode (0xD4400000 ||| imm16.setWidth 32 <<< 5) = .ok .hlt ∧
    ∃ t, exec .hlt s = .next t ∧ t.halted = true ∧ t.programCounter = s.programCounter + 4 ∧
      SameRegisters s t ∧ t.flags = s.flags ∧ SameMemory s t) ∧
  (∀ w : Word, w &&& 0xFF000000 = 0xD4000000 → w &&& 0x00E0001F ≠ 0x00400000 →
    decode w = .error .noTableEntry)

/-- R191 and R26 (decision D11): however many steps are requested of a halted machine, nothing changes. -/
def Obligations.HaltedMachineStaysAsItIs : Prop :=
  ∀ (n : Nat) (s : State), s.halted = true → Host.Core.run Sys2Proof.core n s = .next s

/-- R21: `halted` is written only by HLT, which sets it to true, and nothing sets it back to false; no instruction
reads it, HLT included. The second clause, that a step requested of a halted machine answers the same state and
reports no record, is R26 with the spec's decision D11 (log entry 8). -/
def Obligations.HaltedIsWrittenByHltAndReadByNoInstruction : Prop :=
  (∀ s t : State, step s = .next t → (t.halted = true ↔ s.halted = true ∨ decode s.fetch = .ok .hlt)) ∧
  (∀ s : State, s.halted = true → stepRecord s = none ∧ step s = .next s) ∧
  (∀ (i : Instr) (s t : State) (h : Bool), i ≠ .hlt → exec i s = .next t →
    exec i { s with halted := h } = .next { t with halted := h }) ∧
  (∀ (s : State) (h : Bool), ∃ t, exec .hlt s = .next t ∧ t.halted = true ∧
    exec .hlt { s with halted := h } = .next t)

/-- R192: a word that matches no entry, or that the B.cond entry matches with an unsupported code, is a silent
no-op: only the default advance, one memory access (the fetch), and the tag reported. -/
def Obligations.UnrecognizedWordIsANoOp : Prop :=
  ∀ s : State, s.halted = false → s.programCounter.toNat % 4 = 0 →
    ((∀ row ∈ decodeTable .bit0, s.fetch &&& row.mask ≠ row.expected) ∨
      (lookupTag (decodeTable .bit0) s.fetch = some .bCond ∧
        s.fetch.toNat % 16 ∉ [0x0, 0x1, 0xA, 0xB, 0xC, 0xD])) →
    ∃ t, step s = .next t ∧ JumpsTo s t (s.programCounter + 4) ∧ stepKind s = some .unrecognized ∧
      stepCalls s = [.read s.programCounter]

/-- A STEP RUNS THE DECODED INSTRUCTION (R24): with the commit of R25 around `exec`, which already holds the
default advance (R15). -/
def Obligations.StepRunsTheDecodedInstruction : Prop :=
  ∀ (s : State) (i : Instr), s.halted = false → s.programCounter.toNat % 4 = 0 → decode s.fetch = .ok i →
    i.wellFormed = true →
    step s = commitResult (exec i s) ∧ stepKind s = some i.kind ∧
    ∀ t, exec i s = .next t → step s = .next { t with registers := t.registers.set 31 0 }

/-- R54, R43, R226: a word stored where the machine fetches is the word it fetches, at any program counter. -/
def Obligations.PlacedWordIsFetched : Prop :=
  ∀ (s : State) (w : Word), (s.withFetchWord 32 w.toNat).fetch = w ∧
    ∀ a : Addr, ¬ (a - s.programCounter).toNat < 4 →
      (s.withFetchWord 32 w.toNat).memory.readByte a = s.memory.readByte a

/-- R200, R202, R204, R182: a step request never faults; it completes exactly when the machine is halted or its
program counter is a multiple of 4, and is refused by name otherwise (90_conflicts.md C3, log entry 3). -/
def Obligations.StepCompletesUnlessMisaligned : Prop :=
  ∀ s : State, (s.StepSafe ↔ s.Steppable) ∧ (∀ f, step s ≠ .fault f) ∧
    (¬ s.Steppable → step s = .refused (.misalignedProgramCounter s.programCounter))

/-- AN INVARIANT THAT EVERY STEP KEEPS: the store stays in canonical form and the committed register 31 is 0
(R12, R25, R40). -/
def Obligations.StepKeepsTheInvariant : Prop :=
  ∀ s t : State, s.Inv → step s = .next t → t.Inv

/-- The invariant holds after reset, for every RESET_PC and every MEM_INIT in canonical form. -/
def Obligations.ResetHasTheInvariant : Prop :=
  State.reset.Inv ∧ ∀ (pc : Addr) (m : Memory), m.wf = true → (State.resetAt pc m).Inv

/-- R25, R11 (decision D15): whatever register 31 held before a step that runs, it is 0 after, and it reads as 0
before and after. -/
def Obligations.RegisterThirtyOneIsZeroAfterEveryStep : Prop :=
  ∀ s t : State, s.halted = false → step s = .next t →
    t.registers[31] = 0 ∧ t.readReg 31 = 0 ∧ s.readReg 31 = 0

/-- R14, R16, R182: the program counter stays a multiple of 4 through every step but a BR to a register that is
not one, and such a BR takes the register's value. -/
def Obligations.OnlyBranchToRegisterBreaksAlignment : Prop :=
  ∀ s t : State, s.programCounter.toNat % 4 = 0 → step s = .next t →
    t.programCounter.toNat % 4 = 0 ∨
    ∃ rn, decode s.fetch = .ok (.br rn) ∧ (s.readReg rn).toNat % 4 ≠ 0 ∧ t.programCounter = s.readReg rn

/-- 93_implementation_defined.md U14: Z and N both true is no state a step makes, and not the reset state. -/
def Obligations.ZeroAndNegativeNeverBothBecomeTrue : Prop :=
  ¬ (State.reset.flags.zero = true ∧ State.reset.flags.negative = true) ∧
  ∀ s t : State, ¬ (s.flags.zero = true ∧ s.flags.negative = true) → step s = .next t →
    ¬ (t.flags.zero = true ∧ t.flags.negative = true)

/-! ### What an instruction may change, over all instructions -/

/-- R19, R20 (ANDS among the writers is decision D2): the seven flag writers set Z and N from their result on
every execution; every other instruction leaves both as they were. -/
def Obligations.FlagsChangeOnlyInTheSevenWriters : Prop :=
  ∀ (i : Instr) (s t : State), exec i s = .next t →
    (setsFlags i = true ↔ ∃ r, flagResult s i = some r) ∧
    (∀ r, flagResult s i = some r → FlagsSay t r) ∧ (setsFlags i = false → t.flags = s.flags)

/-- R13: an instruction writes its destination register and no other; CMP, the stores, the branches and HLT write
none, and no load or store writes its base unless the base is the load's destination. -/
def Obligations.OnlyTheDestinationRegisterChanges : Prop :=
  ∀ (i : Instr) (s t : State) (r : RegIdx), exec i s = .next t → destination i ≠ some r →
    t.readReg r = s.readReg r

/-- R15: the program counter advances by 4 in every kind that is no branch; a branch goes to its target or
advances. -/
def Obligations.OnlyBranchesLeaveTheDefaultAdvance : Prop :=
  ∀ (i : Instr) (s t : State), exec i s = .next t → t.programCounter ≠ s.programCounter + 4 →
    isBranch i = true ∧ SameRegisters s t ∧ t.flags = s.flags ∧ t.memory = s.memory ∧ t.halted = s.halted

/-- R55, R65, R192: only the three stores change memory, and only the bytes they store to. -/
def Obligations.OnlyStoredBytesChange : Prop :=
  ∀ (i : Instr) (s t : State), exec i s = .next t →
    (storedBytes s i = none → t.memory = s.memory) ∧
    (∀ a n, storedBytes s i = some (a, n) → ∀ b : Addr, ¬ (b - a).toNat < n →
      t.memory.readByte b = s.memory.readByte b)

/-- R20: only the six conditional branches read the flags: for any other instruction, different flags before give
the same registers, program counter, halted bit and memory after. -/
def Obligations.OnlyConditionalBranchesReadTheFlags : Prop :=
  ∀ (i : Instr) (s t : State) (f : Flags), readsFlags i = false → exec i s = .next t →
    ∃ u, exec i { s with flags := f } = .next u ∧ u.registers = t.registers ∧
      u.programCounter = t.programCounter ∧ u.halted = t.halted ∧ u.memory = t.memory

/-! ### Reset -/

/-- R30, R220 (the zeros are the spec's decision D12; RESET_PC and MEM_INIT are open, D13, log entries 1 and 2):
for every RESET_PC and MEM_INIT, every register 0, Z and N false, running. -/
def Obligations.ResetState : Prop :=
  (∀ (pc : Addr) (m : Memory) (k : Nat) (hk : k < 32) (r : RegIdx),
    (State.resetAt pc m).registers[k] = 0 ∧ (State.resetAt pc m).readReg r = 0 ∧
    (State.resetAt pc m).flags = ⟨false, false⟩ ∧ (State.resetAt pc m).halted = false ∧
    (State.resetAt pc m).programCounter = pc ∧ ∀ a, (State.resetAt pc m).memory.readByte a = m.readByte a) ∧
  State.reset = State.resetAt Config.resetPc [] ∧ State.reset.programCounter.toNat % 4 = 0

/-! ### The parameters of R6 -/

/-- R57, U6 (decision D7, log entry 4): under any parameters, a running machine at an aligned program counter runs
R24's sequence when every byte its fetch and its data accesses touch is in MEM_VALID, and otherwise its step is
refused, naming such a byte; a fetch outside MEM_VALID is refused whatever the word. -/
def Obligations.AccessOutsideMemValidIsRefused : Prop :=
  ∀ (p : Parameters) (s : State), s.halted = false → s.programCounter.toNat % 4 = 0 →
    ((∀ c ∈ cycleCalls p s, ∀ a ∈ c.touched, p.memValid a = true) → stepWith p s = cycleWith p s) ∧
    ((∃ c ∈ cycleCalls p s, ∃ a ∈ c.touched, p.memValid a = false) →
      ∃ a, stepWith p s = .refused (.outsideMemory a) ∧ p.memValid a = false ∧
        ∃ c ∈ cycleCalls p s, a ∈ c.touched) ∧
    (∀ k : Nat, k < 4 → p.memValid (s.programCounter + BitVec.ofNat 64 k) = false →
      ∃ a, stepWith p s = .refused (.outsideMemory a) ∧ (a - s.programCounter).toNat < 4)

/-- R6, R24: under any DECODE_TABLE and BR_RN_LSB the step runs the instruction that they decode, or R192's no-op,
and keeps the invariant; RESET_PC and MEM_INIT give the reset state; the default table is ordered as R75 asks for
both values of BR_RN_LSB; this machine is one such choice (log entries 1, 2, 4, 5, 7). -/
def Obligations.StepUnderAnyParameters : Prop :=
  (∀ (p : Parameters) (s : State), (∀ a, p.memValid a = true) → s.halted = false →
    s.programCounter.toNat % 4 = 0 →
    (∀ i, decodeIn p.decodeTable p.brRnLsb s.fetch = .ok i → stepWith p s = commitResult (exec i s)) ∧
    (∀ e, decodeIn p.decodeTable p.brRnLsb s.fetch = .error e →
      ∃ t, stepWith p s = .next t ∧ JumpsTo s t (s.programCounter + 4))) ∧
  (∀ (p : Parameters) (s t : State), s.Inv → stepWith p s = .next t → t.Inv) ∧
  (∀ p : Parameters, p.admitted = true → p.reset.Inv ∧ p.reset.programCounter = p.resetPc ∧
    p.resetPc.toNat % 4 = 0 ∧ ∀ a, p.reset.memory.readByte a = p.memInit.readByte a) ∧
  (∀ lsb : BrRnLsb, (Parameters.ofBrRnLsb lsb).admitted = true) ∧
  (∀ s : State, step s = stepWith Parameters.default s) ∧ State.reset = Parameters.default.reset
end

