-- ==== Sys2Proof/Laws/Encode.lean ====
section
/-! SUPPORT. The bits of an encoded word, one lemma per layout of spec/30_encoding.md rule R94, the field-free
consequence of an entry's test, and the bits of a word made of bytes. -/

namespace Sys2Proof

/-- An entry's test on one bit: a word it takes has the entry's value wherever the mask is 1. -/
theorem matchesWord_bit {row : TableRow} {w : Word} (h : row.matchesWord w = true) (k : Nat)
    (hm : row.mask.getLsbD k = true) : w.getLsbD k = row.expected.getLsbD k := by
  have e : w &&& row.mask = row.expected := by simpa [TableRow.matchesWord] using h
  rw [← e, BitVec.getLsbD_and, hm, Bool.and_true]

/-- An entry does not take a word that differs from it in a bit its mask tests. -/
theorem matchesWord_false_of_bit {row : TableRow} {w : Word} (k : Nat) (hm : row.mask.getLsbD k = true)
    (hd : w.getLsbD k ≠ row.expected.getLsbD k) : row.matchesWord w = false := by
  cases h : row.matchesWord w
  · rfl
  · exact absurd (matchesWord_bit h k hm) hd

/-- Two entries that differ in a bit both masks test take no word in common. -/
theorem matchesWord_false_of_clash {row other : TableRow} {w : Word} (h : row.matchesWord w = true)
    (hc : (row.expected ^^^ other.expected) &&& row.mask &&& other.mask ≠ 0) : other.matchesWord w = false := by
  cases ho : other.matchesWord w
  · rfl
  · refine absurd ?_ hc
    have e : w &&& row.mask = row.expected := by simpa [TableRow.matchesWord] using h
    have e' : w &&& other.mask = other.expected := by simpa [TableRow.matchesWord] using ho
    rw [← e, ← e']
    apply BitVec.eq_of_getLsbD_eq
    intro k _
    simp only [BitVec.getLsbD_and, BitVec.getLsbD_xor]
    cases w.getLsbD k <;> cases row.mask.getLsbD k <;> cases other.mask.getLsbD k <;> simp

/-- Bits of a word made of four bytes. -/
theorem getLsbD_wordOfBytes (b0 b1 b2 b3 : Byte) (k : Nat) :
    (wordOfBytes b0 b1 b2 b3).getLsbD k =
      if k < 8 then b0.getLsbD k else if k < 16 then b1.getLsbD (k - 8)
      else if k < 24 then b2.getLsbD (k - 16) else b3.getLsbD (k - 24) := by
  have e : (wordOfBytes b0 b1 b2 b3).getLsbD k =
      if k < 8 then b0.getLsbD k else (b3 ++ b2 ++ b1).getLsbD (k - 8) := BitVec.getLsbD_append
  have e1 : (b3 ++ b2 ++ b1).getLsbD (k - 8) =
      if k - 8 < 8 then b1.getLsbD (k - 8) else (b3 ++ b2).getLsbD (k - 8 - 8) := BitVec.getLsbD_append
  have e2 : (b3 ++ b2).getLsbD (k - 8 - 8) =
      if k - 8 - 8 < 8 then b2.getLsbD (k - 8 - 8) else b3.getLsbD (k - 8 - 8 - 8) := BitVec.getLsbD_append
  have h16 : k - 8 - 8 = k - 16 := by omega
  have h24 : k - 16 - 8 = k - 24 := by omega
  rw [e, e1, e2, h16, h24]
  split_ifs <;> first | rfl | omega

/-- The bytes of a word put together are the word. -/
theorem wordOfBytes_wordByte (w : Word) :
    wordOfBytes (wordByte w 0) (wordByte w 1) (wordByte w 2) (wordByte w 3) = w := by
  apply BitVec.eq_of_getLsbD_eq
  intro k hk
  rw [getLsbD_wordOfBytes]
  split_ifs <;>
    (simp only [wordByte, BitVec.getLsbD_extractLsb']
     rw [decide_eq_true (by omega), Bool.true_and]; congr 1; omega)

end Sys2Proof
end

