-- ==== Sys2Proof/Laws/Memory.lean ====
section
/-! SUPPORT. The laws of the byte store: what a read gives after a write, for every list of cells, and that every
memory operation keeps the canonical form. -/

namespace Sys2Proof.Machine

/-! ### Reading after a write -/

theorem readAt_erase (m : Memory) (a b : Nat) :
    (m.erase a).readAt b = if b = a then unlistedByte else m.readAt b := by
  induction m with
  | nil => simp [Memory.erase, Memory.readAt]
  | cons cell rest ih =>
    obtain ⟨k, v⟩ := cell
    simp only [Memory.erase] at ih ⊢
    by_cases hk : k = a
    · subst hk
      simp only [List.filter, bne_self_eq_false, ih, Memory.readAt]
      by_cases hb : b = k
      · simp [hb]
      · simp [hb, Ne.symm hb]
    · by_cases hb : k = b
      · subst hb; simp [Memory.readAt, hk]
      · simp [Memory.readAt, hk, hb, ih]

theorem readAt_insert (m : Memory) (a b : Nat) (v : Byte) (hfree : ∀ cell ∈ m, cell.1 ≠ a) :
    (m.insert a v).readAt b = if b = a then v else m.readAt b := by
  induction m with
  | nil => simp only [Memory.insert, Memory.readAt, eq_comm]
  | cons cell rest ih =>
    obtain ⟨k, w⟩ := cell
    have hk : k ≠ a := hfree (k, w) (by simp)
    have ih' := ih (fun c hc => hfree c (by simp [hc]))
    by_cases hlt : a < k
    · simp only [Memory.insert, hlt, ↓reduceIte, Memory.readAt, eq_comm (a := a)]
    · simp only [Memory.insert, hlt, ↓reduceIte, Memory.readAt, ih']
      by_cases hb : k = b
      · subst hb; simp [hk]
      · simp [hb]

theorem not_mem_erase (m : Memory) (a : Nat) : ∀ cell ∈ m.erase a, cell.1 ≠ a := by
  intro cell hc; simpa using (List.mem_filter.mp hc).2

/-- A byte write, in full: the byte written at its address, every other byte as before. -/
theorem readByte_writeByte (m : Memory) (a b : Addr) (v : Byte) :
    (m.writeByte a v).readByte b = if b = a then v else m.readByte b := by
  have hab : (b.toNat = a.toNat) ↔ b = a := BitVec.toNat_inj
  unfold Memory.writeByte Memory.readByte
  split
  · next hv => simp [readAt_erase, hab, hv]
  · rw [readAt_insert _ _ _ _ (not_mem_erase m a.toNat)]
    simp only [readAt_erase, hab]
    split <;> rfl

/-- `write_word`, in full (R42): byte `k` of the word at `a + k` modulo 2^64, every other byte as before. -/
theorem readByte_writeWord (m : Memory) (a b : Addr) (v : Word) :
    (m.writeWord a v).readByte b =
      if (b - a).toNat < 4 then wordByte v (b - a).toNat else m.readByte b := by
  have h0 : b = a ↔ (b - a).toNat = 0 := by constructor <;> intro h <;> bv_omega
  have h1 : b = a + 1 ↔ (b - a).toNat = 1 := by constructor <;> intro h <;> bv_omega
  have h2 : b = a + 2 ↔ (b - a).toNat = 2 := by constructor <;> intro h <;> bv_omega
  have h3 : b = a + 3 ↔ (b - a).toNat = 3 := by constructor <;> intro h <;> bv_omega
  simp only [Memory.writeWord, readByte_writeByte, h0, h1, h2, h3]
  by_cases hd : (b - a).toNat < 4
  · have : (b - a).toNat = 0 ∨ (b - a).toNat = 1 ∨ (b - a).toNat = 2 ∨ (b - a).toNat = 3 := by omega
    obtain h | h | h | h := this <;> simp [h]
  · simp only [hd, ↓reduceIte]
    rw [if_neg (by omega), if_neg (by omega), if_neg (by omega), if_neg (by omega)]

/-! ### The canonical form -/

theorem wfAbove_mono {m : Memory} {low low' : Nat} (h : m.wfAbove low = true) (hle : low' ≤ low) :
    m.wfAbove low' = true := by
  cases m with
  | nil => rfl
  | cons cell rest =>
    obtain ⟨k, v⟩ := cell
    simp only [Memory.wfAbove, Bool.and_eq_true, decide_eq_true_eq] at h ⊢
    exact ⟨⟨⟨by omega, h.1.1.2⟩, h.1.2⟩, h.2⟩

theorem wfAbove_erase {m : Memory} {low : Nat} (a : Nat) (h : m.wfAbove low = true) :
    (m.erase a).wfAbove low = true := by
  induction m generalizing low with
  | nil => rfl
  | cons cell rest ih =>
    obtain ⟨k, v⟩ := cell
    simp only [Memory.wfAbove, Bool.and_eq_true, decide_eq_true_eq] at h
    have ihr := ih h.2
    simp only [Memory.erase] at ihr ⊢
    by_cases hk : k = a
    · simp only [List.filter, hk, bne_self_eq_false]
      exact wfAbove_mono (hk ▸ ihr) (by omega)
    · simp only [List.filter, bne_iff_ne.mpr hk, Memory.wfAbove, Bool.and_eq_true, decide_eq_true_eq]
      exact ⟨h.1, ihr⟩

theorem wfAbove_insert {m : Memory} {low a : Nat} {v : Byte} (h : m.wfAbove low = true)
    (hfree : ∀ cell ∈ m, cell.1 ≠ a) (hlow : low ≤ a) (ha : a < 2 ^ 64) (hv : v ≠ unlistedByte) :
    (m.insert a v).wfAbove low = true := by
  induction m generalizing low with
  | nil =>
    simp only [Memory.insert, Memory.wfAbove, Bool.and_true, Bool.and_eq_true, decide_eq_true_eq, bne_iff_ne]
    exact ⟨⟨hlow, ha⟩, hv⟩
  | cons cell rest ih =>
    obtain ⟨k, w⟩ := cell
    have hk : k ≠ a := hfree (k, w) (by simp)
    simp only [Memory.wfAbove, Bool.and_eq_true, decide_eq_true_eq] at h
    by_cases hlt : a < k
    · simp only [Memory.insert, hlt, ↓reduceIte, Memory.wfAbove, Bool.and_eq_true, decide_eq_true_eq,
        bne_iff_ne]
      exact ⟨⟨⟨hlow, ha⟩, hv⟩, ⟨⟨by omega, h.1.1.2⟩, bne_iff_ne.mp h.1.2⟩, h.2⟩
    · simp only [Memory.insert, hlt, ↓reduceIte, Memory.wfAbove, Bool.and_eq_true, decide_eq_true_eq]
      exact ⟨h.1, ih h.2 (fun c hc => hfree c (by simp [hc])) (by omega)⟩

/-- A byte write keeps the canonical form. -/
theorem wf_writeByte {m : Memory} (a : Addr) (v : Byte) (h : m.wf = true) : (m.writeByte a v).wf = true := by
  unfold Memory.writeByte Memory.wf
  split
  · exact wfAbove_erase _ h
  · next hv => exact wfAbove_insert (wfAbove_erase _ h) (not_mem_erase m _) (by omega) a.isLt hv

/-- `write_word` keeps the canonical form. -/
theorem wf_writeWord {m : Memory} (a : Addr) (v : Word) (h : m.wf = true) : (m.writeWord a v).wf = true :=
  wf_writeByte _ _ (wf_writeByte _ _ (wf_writeByte _ _ (wf_writeByte _ _ h)))

/-- A byte store keeps the canonical form. -/
theorem wf_write8 {m : Memory} (a : Addr) (v : Byte) (h : m.wf = true) : (m.write8 a v).wf = true :=
  wf_writeWord _ _ h

/-- A halfword store keeps the canonical form. -/
theorem wf_write16 {m : Memory} (a : Addr) (v : Halfword) (h : m.wf = true) : (m.write16 a v).wf = true :=
  wf_writeWord _ _ h

/-- A doubleword store keeps the canonical form. -/
theorem wf_write64 {m : Memory} (a : Addr) (v : Doubleword) (h : m.wf = true) : (m.write64 a v).wf = true :=
  wf_writeWord _ _ (wf_writeWord _ _ h)

/-- The memory of the reset state is in canonical form. -/
theorem wf_reset : State.reset.memory.wf = true := rfl

end Sys2Proof.Machine
end

