-- ==== Sys2Proof/Laws/LoadStore.lean ====
section
/-! SUPPORT. The load/store unit in terms of the bytes of the store (spec/20_memory.md rule R65): one lemma per
access primitive, with the address and lane arithmetic it needs. -/

namespace Sys2Proof.Machine

/-! ### Addresses and lanes -/

theorem toNat_and_not_three (a : Addr) : (a &&& ~~~3#64).toNat = a.toNat - a.toNat % 4 := by
  have e : a &&& ~~~3#64 = a >>> 2 <<< 2 := by
    apply BitVec.eq_of_getLsbD_eq
    intro k hk
    rcases Nat.lt_or_ge k 2 with h | h
    · interval_cases k <;> simp
    · have h3 : (3#64).getLsbD k = false := by
        rw [BitVec.getLsbD_ofNat, Nat.testBit_lt_two_pow (lt_of_lt_of_le (by decide) (Nat.pow_le_pow_right (by decide) h))]
        simp
      simp only [BitVec.getLsbD_and, BitVec.getLsbD_not, h3, BitVec.getLsbD_shiftLeft, BitVec.getLsbD_ushiftRight, hk,
        Nat.not_lt.mpr h, Nat.add_sub_cancel' h, decide_true, decide_false, Bool.not_false, Bool.and_true, Bool.true_and]
  rw [e]
  simp only [BitVec.toNat_shiftLeft, BitVec.toNat_ushiftRight, Nat.shiftLeft_eq, Nat.shiftRight_eq_div_pow]
  have := a.isLt
  omega

theorem toNat_and_not_one (a : Addr) : (a &&& ~~~1#64).toNat = a.toNat - a.toNat % 2 := by
  have e : a &&& ~~~1#64 = a >>> 1 <<< 1 := by
    apply BitVec.eq_of_getLsbD_eq
    intro k hk
    rcases Nat.lt_or_ge k 1 with h | h
    · interval_cases k; simp
    · have h3 : (1#64).getLsbD k = false := by
        rw [BitVec.getLsbD_ofNat, Nat.testBit_lt_two_pow (lt_of_lt_of_le (by decide) (Nat.pow_le_pow_right (by decide) h))]
        simp
      simp only [BitVec.getLsbD_and, BitVec.getLsbD_not, h3, BitVec.getLsbD_shiftLeft, BitVec.getLsbD_ushiftRight, hk,
        Nat.not_lt.mpr h, Nat.add_sub_cancel' h, decide_true, decide_false, Bool.not_false, Bool.and_true, Bool.true_and]
  rw [e]
  simp only [BitVec.toNat_shiftLeft, BitVec.toNat_ushiftRight, Nat.shiftLeft_eq, Nat.shiftRight_eq_div_pow]
  have := a.isLt
  omega

/-- The distance from one address to another, added back. -/
theorem add_ofNat_sub (a b : Addr) : a + BitVec.ofNat 64 (b - a).toNat = b := by
  rw [BitVec.ofNat_toNat, BitVec.setWidth_eq]
  bv_omega

/-- The aligned word's address plus the byte lane is the address (R45). -/
theorem alignDown_add_byteLane (a : Addr) : alignDown a + BitVec.ofNat 64 (byteLane a) = a := by
  apply BitVec.eq_of_toNat_eq
  have h := toNat_and_not_three a
  have := a.isLt
  simp only [alignDown, byteLane, BitVec.toNat_add, BitVec.toNat_ofNat, h]
  omega

/-- The aligned word's address plus twice the halfword lane is the address with bit 0 cleared (R46). -/
theorem alignDown_add_halfLane (a : Addr) : alignDown a + BitVec.ofNat 64 (2 * halfLane a) = a &&& ~~~1#64 := by
  apply BitVec.eq_of_toNat_eq
  have h := toNat_and_not_three a
  have := a.isLt
  rw [toNat_and_not_one]
  simp only [alignDown, halfLane, BitVec.toNat_add, BitVec.toNat_ofNat, h]
  omega

/-! ### Bytes of words -/

/-- Byte `j` of the word `read_word` answers (R41). -/
theorem wordByte_readWord (m : Memory) (a : Addr) (j : Nat) (hj : j < 4) :
    wordByte (m.readWord a) j = m.readByte (a + BitVec.ofNat 64 j) := by
  have hz : a + 0#64 = a := by simp
  apply BitVec.eq_of_getLsbD_eq
  intro k hk
  simp only [wordByte, BitVec.getLsbD_extractLsb', hk, decide_true, Bool.true_and, Memory.readWord,
    getLsbD_wordOfBytes]
  interval_cases j
  · rw [if_pos (by omega)]; simp
  · rw [if_neg (by omega), if_pos (by omega)]; congr 1; omega
  · rw [if_neg (by omega), if_neg (by omega), if_pos (by omega)]; congr 1; omega
  · rw [if_neg (by omega), if_neg (by omega), if_neg (by omega)]; congr 1; omega

/-- The word R50 writes back: the lane's byte is the new one, the other three are as they were. -/
theorem wordByte_insertByteLane (w : Word) (v : Byte) (lane j : Nat) (hl : lane < 4) (hj : j < 4) :
    wordByte (insertByteLane w lane v) j = if j = lane then v else wordByte w j := by
  apply BitVec.eq_of_getLsbD_eq
  intro k hk
  interval_cases lane <;> interval_cases j <;> interval_cases k <;> simp [wordByte, insertByteLane]

/-- The word R51 writes back: the lane's two bytes are the new halfword's, the other two are as they were. -/
theorem wordByte_insertHalfLane (w : Word) (v : Halfword) (lane j : Nat) (hl : lane < 2) (hj : j < 4) :
    wordByte (insertHalfLane w lane v) j =
      if j / 2 = lane then v.extractLsb' (8 * (j % 2)) 8 else wordByte w j := by
  apply BitVec.eq_of_getLsbD_eq
  intro k hk
  interval_cases lane <;> interval_cases j <;> interval_cases k <;> simp [wordByte, insertHalfLane]

/-! ### The six primitives -/

/-- `MemRead(A, 1) = Mem[A]` (R65). -/
theorem read8_eq (m : Memory) (a : Addr) : m.read8 a = m.readByte a := by
  have h := wordByte_readWord m (alignDown a) (byteLane a) (by unfold byteLane; omega)
  rw [alignDown_add_byteLane] at h
  exact h

/-- `MemRead(A, 2)`: byte `j` is the byte at the address with bit 0 cleared, plus `j` (R65). -/
theorem read16_byte (m : Memory) (a : Addr) (j : Nat) (hj : j < 2) :
    (m.read16 a).extractLsb' (8 * j) 8 = m.readByte ((a &&& ~~~1#64) + BitVec.ofNat 64 j) := by
  have hl : halfLane a < 2 := by unfold halfLane; omega
  have h := wordByte_readWord m (alignDown a) (2 * halfLane a + j) (by omega)
  have ha : alignDown a + BitVec.ofNat 64 (2 * halfLane a + j) = (a &&& ~~~1#64) + BitVec.ofNat 64 j := by
    rw [← alignDown_add_halfLane]; bv_omega
  rw [ha] at h
  rw [← h]
  apply BitVec.eq_of_getLsbD_eq
  intro k hk
  simp only [wordByte, Memory.read16, BitVec.getLsbD_extractLsb', hk, decide_true, Bool.true_and]
  rw [decide_eq_true (by omega), Bool.true_and]
  congr 1; omega

/-- `MemRead(A, 8)`: byte `j` is `Mem[A+j]` (R65). -/
theorem read64_byte (m : Memory) (a : Addr) (j : Nat) (hj : j < 8) :
    (m.read64 a).extractLsb' (8 * j) 8 = m.readByte (a + BitVec.ofNat 64 j) := by
  have bits : ∀ k, (m.read64 a).getLsbD k =
      if k < 32 then (m.readWord a).getLsbD k else (m.readWord (a + 4)).getLsbD (k - 32) :=
    fun k => BitVec.getLsbD_append
  rcases Nat.lt_or_ge j 4 with h | h
  · rw [← wordByte_readWord m a j h]
    apply BitVec.eq_of_getLsbD_eq
    intro k hk
    simp only [wordByte, BitVec.getLsbD_extractLsb', hk, decide_true, Bool.true_and, bits]
    rw [if_pos (by omega)]
  · have ha : a + BitVec.ofNat 64 j = a + 4 + BitVec.ofNat 64 (j - 4) := by bv_omega
    rw [ha, ← wordByte_readWord m (a + 4) (j - 4) (by omega)]
    apply BitVec.eq_of_getLsbD_eq
    intro k hk
    simp only [wordByte, BitVec.getLsbD_extractLsb', hk, decide_true, Bool.true_and, bits]
    rw [if_neg (by omega)]
    congr 1; omega

/-- `MemWrite(A, 1, v)` changes `Mem[A]` only (R65). -/
theorem readByte_write8 (m : Memory) (a b : Addr) (v : Byte) :
    (m.write8 a v).readByte b = if b = a then v else m.readByte b := by
  have hl : byteLane a < 4 := by unfold byteLane; omega
  have ha := alignDown_add_byteLane a
  unfold Memory.write8
  rw [readByte_writeWord]
  generalize alignDown a = al at *
  generalize byteLane a = lane at *
  by_cases h : (b - al).toNat < 4
  · rw [if_pos h, wordByte_insertByteLane _ _ _ _ hl h, wordByte_readWord _ _ _ h]
    have hb := add_ofNat_sub al b
    by_cases hj : (b - al).toNat = lane
    · rw [if_pos hj, if_pos (by rw [← hb, hj, ha])]
    · rw [if_neg hj, if_neg (by rintro rfl; apply hj; rw [← ha]; bv_omega), hb]
  · rw [if_neg h, if_neg (by rintro rfl; apply h; rw [← ha]; bv_omega)]

/-- `MemWrite(A, 2, v)` changes the two bytes at the address with bit 0 cleared, and no other (R65). -/
theorem readByte_write16 (m : Memory) (a b : Addr) (v : Halfword) :
    (m.write16 a v).readByte b =
      if (b - (a &&& ~~~1#64)).toNat < 2 then v.extractLsb' (8 * (b - (a &&& ~~~1#64)).toNat) 8
      else m.readByte b := by
  have hl : halfLane a < 2 := by unfold halfLane; omega
  have ha := alignDown_add_halfLane a
  unfold Memory.write16
  rw [readByte_writeWord, ← ha]
  generalize alignDown a = al at *
  generalize halfLane a = lane at *
  by_cases h : (b - al).toNat < 4
  · rw [if_pos h, wordByte_insertHalfLane _ _ _ _ hl h, wordByte_readWord _ _ _ h]
    have hb := add_ofNat_sub al b
    by_cases hj : (b - al).toNat / 2 = lane
    · have hd : (b - (al + BitVec.ofNat 64 (2 * lane))).toNat = (b - al).toNat % 2 := by bv_omega
      rw [if_pos hj, hd, if_pos (by omega)]
    · rw [if_neg hj, hb, if_neg (by bv_omega)]
  · rw [if_neg h, if_neg (by bv_omega)]

/-- `MemWrite(A, 8, v)` writes the eight bytes from `A`, and no other (R65). -/
theorem readByte_write64 (m : Memory) (a b : Addr) (v : Doubleword) :
    (m.write64 a v).readByte b =
      if (b - a).toNat < 8 then v.extractLsb' (8 * (b - a).toNat) 8 else m.readByte b := by
  unfold Memory.write64
  rw [readByte_writeWord, readByte_writeWord]
  by_cases hhi : (b - (a + 4)).toNat < 4
  · have hd : (b - a).toNat = (b - (a + 4)).toNat + 4 := by bv_omega
    rw [if_pos hhi, hd, if_pos (by omega)]
    generalize (b - (a + 4)).toNat = j at *
    apply BitVec.eq_of_getLsbD_eq
    intro k hk
    simp only [wordByte, BitVec.getLsbD_extractLsb', hk, decide_true, Bool.true_and]
    rw [decide_eq_true (by omega), Bool.true_and]
    congr 1; omega
  · rw [if_neg hhi]
    by_cases hlo : (b - a).toNat < 4
    · rw [if_pos hlo, if_pos (by omega)]
      generalize (b - a).toNat = j at *
      apply BitVec.eq_of_getLsbD_eq
      intro k hk
      simp only [wordByte, BitVec.getLsbD_extractLsb', hk, decide_true, Bool.true_and]
      rw [decide_eq_true (by omega), Bool.true_and]
      congr 1; omega
    · rw [if_neg hlo, if_neg (by bv_omega)]

/-- `read_word` after `write_word` at the same address (R41, R42). -/
theorem readWord_writeWord (m : Memory) (a : Addr) (v : Word) : (m.writeWord a v).readWord a = v := by
  have h1 : (a + 1 - a).toNat = 1 := by bv_omega
  have h2 : (a + 2 - a).toNat = 2 := by bv_omega
  have h3 : (a + 3 - a).toNat = 3 := by bv_omega
  unfold Memory.readWord
  rw [readByte_writeWord, readByte_writeWord, readByte_writeWord, readByte_writeWord, h1, h2, h3,
    BitVec.sub_self]
  exact wordOfBytes_wordByte v

end Sys2Proof.Machine
end

