-- ==== Sys2Proof/Laws/State.lean ====
section
/-! SUPPORT. The small lemmas of the state: one per field per update, and what a register read gives after each
update, so that no later proof unfolds a record update. -/

namespace Sys2Proof.Machine

variable (s : State) (i r : RegIdx) (v : Doubleword) (t : Addr) (m : Memory)

/-! ### setPc -/
@[simp] theorem setPc_registers : (s.setPc t).registers = s.registers := rfl
@[simp] theorem setPc_programCounter : (s.setPc t).programCounter = t := rfl
@[simp] theorem setPc_flags : (s.setPc t).flags = s.flags := rfl
@[simp] theorem setPc_halted : (s.setPc t).halted = s.halted := rfl
@[simp] theorem setPc_memory : (s.setPc t).memory = s.memory := rfl
@[simp] theorem readReg_setPc : (s.setPc t).readReg r = s.readReg r := rfl

/-! ### advance -/
@[simp] theorem advance_registers : s.advance.registers = s.registers := rfl
@[simp] theorem advance_programCounter : s.advance.programCounter = s.programCounter + 4 := rfl
@[simp] theorem advance_flags : s.advance.flags = s.flags := rfl
@[simp] theorem advance_halted : s.advance.halted = s.halted := rfl
@[simp] theorem advance_memory : s.advance.memory = s.memory := rfl
@[simp] theorem readReg_advance : s.advance.readReg r = s.readReg r := rfl

/-! ### setMemory -/
@[simp] theorem setMemory_registers : (s.setMemory m).registers = s.registers := rfl
@[simp] theorem setMemory_programCounter : (s.setMemory m).programCounter = s.programCounter := rfl
@[simp] theorem setMemory_flags : (s.setMemory m).flags = s.flags := rfl
@[simp] theorem setMemory_halted : (s.setMemory m).halted = s.halted := rfl
@[simp] theorem setMemory_memory : (s.setMemory m).memory = m := rfl
@[simp] theorem readReg_setMemory : (s.setMemory m).readReg r = s.readReg r := rfl

/-! ### setHalted -/
@[simp] theorem setHalted_registers : s.setHalted.registers = s.registers := rfl
@[simp] theorem setHalted_programCounter : s.setHalted.programCounter = s.programCounter := rfl
@[simp] theorem setHalted_flags : s.setHalted.flags = s.flags := rfl
@[simp] theorem setHalted_halted : s.setHalted.halted = true := rfl
@[simp] theorem setHalted_memory : s.setHalted.memory = s.memory := rfl
@[simp] theorem readReg_setHalted : s.setHalted.readReg r = s.readReg r := rfl

/-! ### setNZ -/
@[simp] theorem setNZ_registers : (s.setNZ v).registers = s.registers := rfl
@[simp] theorem setNZ_programCounter : (s.setNZ v).programCounter = s.programCounter := rfl
@[simp] theorem setNZ_flags : (s.setNZ v).flags = flagsOf v := rfl
@[simp] theorem setNZ_halted : (s.setNZ v).halted = s.halted := rfl
@[simp] theorem setNZ_memory : (s.setNZ v).memory = s.memory := rfl
@[simp] theorem readReg_setNZ : (s.setNZ v).readReg r = s.readReg r := rfl

/-! ### writeReg -/
@[simp] theorem writeReg_zeroReg : s.writeReg zeroReg v = s := rfl

@[simp] theorem writeReg_programCounter : (s.writeReg i v).programCounter = s.programCounter := by
  unfold State.writeReg; split <;> rfl

@[simp] theorem writeReg_flags : (s.writeReg i v).flags = s.flags := by
  unfold State.writeReg; split <;> rfl

@[simp] theorem writeReg_halted : (s.writeReg i v).halted = s.halted := by
  unfold State.writeReg; split <;> rfl

@[simp] theorem writeReg_memory : (s.writeReg i v).memory = s.memory := by
  unfold State.writeReg; split <;> rfl

/-- The register array after a write: unchanged for register 31. -/
theorem writeReg_registers : (s.writeReg i v).registers =
    if i = zeroReg then s.registers else s.registers.set i.toNat v i.isLt := by
  unfold State.writeReg; split <;> rfl

@[simp] theorem readReg_zeroReg : s.readReg zeroReg = 0 := rfl

/-- A register other than 31 reads what the array holds. -/
theorem readReg_of_ne (h : r ≠ zeroReg) : s.readReg r = s.registers[r.toNat]'r.isLt := by
  simp [State.readReg, h]

/-! ### commit -/
@[simp] theorem commit_registers : s.commit.registers = s.registers.set 31 0 := rfl
@[simp] theorem commit_programCounter : s.commit.programCounter = s.programCounter := rfl
@[simp] theorem commit_flags : s.commit.flags = s.flags := rfl
@[simp] theorem commit_halted : s.commit.halted = s.halted := rfl
@[simp] theorem commit_memory : s.commit.memory = s.memory := rfl

/-- The commit changes nothing a program can read. -/
@[simp] theorem readReg_commit : s.commit.readReg r = s.readReg r := by
  by_cases h : r = zeroReg
  · simp [State.readReg, h]
  · have hn : (31 : Nat) ≠ r.toNat := fun e => h (by apply BitVec.eq_of_toNat_eq; simp [← e])
    simp [State.readReg, h, hn]

/-! ### withFetchWord and resetAt -/
@[simp] theorem withFetchWord_registers (n w : Nat) : (s.withFetchWord n w).registers = s.registers := rfl
@[simp] theorem withFetchWord_programCounter (n w : Nat) :
    (s.withFetchWord n w).programCounter = s.programCounter := rfl
@[simp] theorem withFetchWord_flags (n w : Nat) : (s.withFetchWord n w).flags = s.flags := rfl
@[simp] theorem withFetchWord_halted (n w : Nat) : (s.withFetchWord n w).halted = s.halted := rfl
@[simp] theorem resetAt_programCounter : (State.resetAt t m).programCounter = t := rfl
@[simp] theorem resetAt_halted : (State.resetAt t m).halted = false := rfl
@[simp] theorem resetAt_memory : (State.resetAt t m).memory = m := rfl

end Sys2Proof.Machine
end

