-- ==== Sys2Proof/Laws/Ops.lean ====
section
/-! SUPPORT. One lemma per shared operation that says once everything it can do: the register write, SetNZ, the
result shapes of Machine/Ops.lean and Machine/Flags.lean, the commit of a result, and the step. -/

namespace Sys2Proof.Machine

/-! ### Registers and flags -/

/-- A register write, in full (R12). -/
theorem readReg_writeReg (s : State) (i r : RegIdx) (v : Doubleword) :
    (s.writeReg i v).readReg r = if r = i ∧ r ≠ zeroReg then v else s.readReg r := by
  by_cases hi : i = zeroReg
  · subst hi
    rw [writeReg_zeroReg, if_neg (fun h => h.2 h.1)]
  · by_cases hr : r = zeroReg
    · simp [hr]
    · rw [readReg_of_ne _ _ hr]
      by_cases h : r = i
      · subst h; simp [writeReg_registers, hr]
      · have hn : i.toNat ≠ r.toNat := fun e => h (BitVec.eq_of_toNat_eq e.symm)
        simp [writeReg_registers, hi, h, readReg_of_ne _ _ hr, hn]

theorem registerBecomes_writeReg (s : State) (i : RegIdx) (v : Doubleword) :
    RegisterBecomes s (s.advance.writeReg i v) i v := fun r => readReg_writeReg s.advance i r v

/-- The flags of a result, as R19's words have them. -/
theorem flagsOf_says (s : State) (r : Doubleword) : FlagsSay (s.setNZ r) r :=
  ⟨rfl, by simp [flagsOf, BitVec.msb_eq_toInt]⟩

/-! ### The result shapes -/

theorem writeResult_next {s t : State} {rd : RegIdx} {v : Doubleword} (h : writeResult s rd v = .next t) :
    WritesRegister s t rd v ∧ t.memory = s.memory := by
  cases h
  exact ⟨⟨registerBecomes_writeReg s rd v, by simp, by simp, by simp, fun a => by simp⟩, by simp⟩

theorem writeResultNZ_next {s t : State} {rd : RegIdx} {v : Doubleword} (h : writeResultNZ s rd v = .next t) :
    WritesRegisterAndFlags s t rd v ∧ t.memory = s.memory := by
  cases h
  exact ⟨⟨registerBecomes_writeReg s rd v, flagsOf_says _ v, by simp, by simp, fun a => by simp⟩, by simp⟩

theorem compareResult_next {s t : State} {v : Doubleword} (h : compareResult s v = .next t) :
    WritesFlags s t v ∧ t.registers = s.registers ∧ t.memory = s.memory := by
  cases h
  exact ⟨⟨fun _ => rfl, flagsOf_says _ v, rfl, rfl, fun _ => rfl⟩, rfl, rfl⟩

theorem storeResult_next {s t : State} {m : Memory} (h : storeResult s m = .next t) :
    SameRegisters s t ∧ t.registers = s.registers ∧ t.flags = s.flags ∧ t.halted = s.halted ∧
      t.programCounter = s.programCounter + 4 ∧ t.memory = m := by
  cases h
  exact ⟨fun _ => rfl, rfl, rfl, rfl, rfl, rfl⟩

theorem branchResult_next {s t : State} {taken : Bool} {target : Addr}
    (h : branchResult s taken target = .next t) :
    JumpsTo s t (if taken then target else s.programCounter + 4) ∧ t.registers = s.registers ∧
      t.memory = s.memory := by
  cases h
  cases taken <;> exact ⟨⟨rfl, fun _ => rfl, rfl, rfl, fun _ => rfl⟩, rfl, rfl⟩

/-! ### The step -/

/-- The commit of a result: a next state's register 31 becomes 0, a stop stays the stop. -/
theorem commitResult_next {o : Result} {u : State} : commitResult o = .next u ↔ ∃ t, o = .next t ∧ u = t.commit := by
  cases o <;> simp [commitResult, eq_comm]

/-- `firstOutside` answers nothing exactly when every touched byte is in MEM_VALID. -/
theorem firstOutside_eq_none {valid : Addr → Bool} {calls : List MemCall} :
    firstOutside valid calls = none ↔ ∀ c ∈ calls, ∀ a ∈ c.touched, valid a = true := by
  simp [firstOutside]

/-- What `firstOutside` answers is a touched byte outside MEM_VALID. -/
theorem firstOutside_eq_some {valid : Addr → Bool} {calls : List MemCall} {a : Addr}
    (h : firstOutside valid calls = some a) : valid a = false ∧ ∃ c ∈ calls, a ∈ c.touched := by
  refine ⟨by simpa using List.find?_some h, ?_⟩
  simpa [List.mem_flatMap] using List.mem_of_find?_eq_some h

/-- With every address valid nothing is outside. -/
@[simp] theorem firstOutside_all (calls : List MemCall) : firstOutside (fun _ => true) calls = none :=
  firstOutside_eq_none.2 fun _ _ _ _ => rfl

@[simp] theorem default_memValid : Parameters.default.memValid = fun _ => true := rfl
@[simp] theorem default_decode (w : Word) : Parameters.default.decode w = decode w := rfl
@[simp] theorem default_decodeRecord (w : Word) : Parameters.default.decodeRecord w = decodeRecord w := rfl
@[simp] theorem default_reset : Parameters.default.reset = State.reset := rfl

/-- What a step request can do under any parameters: nothing when halted, a refusal from a misaligned program
counter or for a byte outside MEM_VALID, else R24. -/
theorem stepWith_cases (p : Parameters) (s : State) :
    (s.halted = true ∧ stepWith p s = .next s) ∨
    (s.halted = false ∧ s.programCounter.toNat % 4 ≠ 0 ∧
      stepWith p s = .refused (.misalignedProgramCounter s.programCounter)) ∨
    (s.halted = false ∧ s.programCounter.toNat % 4 = 0 ∧
      ((∃ a, firstOutside p.memValid (cycleCalls p s) = some a ∧ stepWith p s = .refused (.outsideMemory a)) ∨
       (firstOutside p.memValid (cycleCalls p s) = none ∧ stepWith p s = cycleWith p s))) := by
  unfold stepWith
  cases hh : s.halted
  · by_cases hp : s.programCounter.toNat % 4 = 0
    · refine .inr (.inr ⟨rfl, hp, ?_⟩)
      cases h : firstOutside p.memValid (cycleCalls p s) with
      | some a => exact .inl ⟨a, rfl, by simp [pcAligned, hp]⟩
      | none => exact .inr ⟨rfl, by simp [pcAligned, hp]⟩
    · exact .inr (.inl ⟨rfl, hp, by simp [pcAligned, hp]⟩)
  · exact .inl ⟨rfl, by simp⟩

/-- What a step request of this machine can do: its MEM_VALID refuses nothing. -/
theorem step_cases (s : State) :
    (s.halted = true ∧ step s = .next s) ∨
    (s.halted = false ∧ s.programCounter.toNat % 4 ≠ 0 ∧
      step s = .refused (.misalignedProgramCounter s.programCounter)) ∨
    (s.halted = false ∧ s.programCounter.toNat % 4 = 0 ∧ step s = cycle s) := by
  rcases stepWith_cases Parameters.default s with h | h | ⟨h, hp, ⟨a, ha, _⟩ | ⟨_, hs⟩⟩
  · exact .inl h
  · exact .inr (.inl h)
  · simp at ha
  · exact .inr (.inr ⟨h, hp, hs⟩)

/-- What R24's sequence can do: the decoded instruction and the commit, or R192's no-op and the commit. -/
theorem cycleWith_cases (p : Parameters) (s : State) :
    (∃ i, p.decode s.fetch = .ok i ∧ cycleWith p s = commitResult (exec i s)) ∨
    (∃ e, p.decode s.fetch = .error e ∧ cycleWith p s = .next s.advance.commit) := by
  unfold cycleWith
  cases h : p.decode s.fetch with
  | ok i => exact .inl ⟨i, rfl, rfl⟩
  | error e => exact .inr ⟨e, rfl, rfl⟩

/-- The same on this machine. -/
theorem cycle_cases (s : State) :
    (∃ i, decode s.fetch = .ok i ∧ cycle s = commitResult (exec i s)) ∨
    (∃ e, decode s.fetch = .error e ∧ cycle s = .next s.advance.commit) :=
  cycleWith_cases Parameters.default s

/-! ### The reports -/

/-- This machine's record: the fetched word's, when it runs and its program counter is aligned. -/
theorem stepRecord_eq (s : State) : stepRecord s =
    if s.halted = false ∧ s.programCounter.toNat % 4 = 0 then some (decodeRecord s.fetch) else none := by
  simp [stepRecord, stepRecordWith, runsCycle, pcAligned]

/-- This machine's memory calls: the fetch and the data accesses, when it runs and its program counter is aligned. -/
theorem stepCalls_eq (s : State) : stepCalls s =
    if s.halted = false ∧ s.programCounter.toNat % 4 = 0 then
      .read s.programCounter :: decodedCalls (decode s.fetch) s else [] := by
  simp [stepCalls, stepCallsWith, runsCycle, pcAligned, cycleCalls]

end Sys2Proof.Machine
end

