-- ==== Sys2Proof/Laws/PerInstr.lean ====
section
/-! SUPPORT. A family of per-instruction lemmas: the word the encoder writes for an instruction is one that the
instruction's own entry of the table takes (spec/30_encoding.md rules R74, R76 and R94). -/

namespace Sys2Proof

/-- The entry of R76 whose extractor makes the instruction. -/
def ownRow (lsb : BrRnLsb) : Instr → TableRow
  | .addImm _ _ _ _ => ⟨0xFF000000, 0x91000000, .addImm⟩
  | .addsImm _ _ _ _ => ⟨0xFF000000, 0xB1000000, .addsImm⟩
  | .subImm _ _ _ _ => ⟨0xFF000000, 0xD1000000, .subImm⟩
  | .subsImm _ _ _ _ => ⟨0xFF000000, 0xF1000000, .subsImm⟩
  | .cmpImm _ _ _ => ⟨0xFF00001F, 0xF100001F, .cmpImm⟩
  | .addReg _ _ _ => ⟨0xFFE0FC00, 0x8B000000, .addReg⟩
  | .addsReg _ _ _ => ⟨0xFFE0FC00, 0xAB000000, .addsReg⟩
  | .subReg _ _ _ => ⟨0xFFE0FC00, 0xCB000000, .subReg⟩
  | .subsReg _ _ _ => ⟨0xFFE0FC00, 0xEB000000, .subsReg⟩
  | .cmpReg _ _ => cmpRegRow
  | .andsReg _ _ _ => ⟨0xFFE0FC00, 0xEA000000, .andsReg⟩
  | .eorReg _ _ _ => ⟨0xFFE0FC00, 0xCA000000, .eorReg⟩
  | .orrReg _ _ _ => ⟨0xFFE0FC00, 0xAA000000, .orrReg⟩
  | .mul _ _ _ => ⟨0xFFE0FC00, 0x9B007C00, .mul⟩
  | .movz _ _ => ⟨0xFF800000, 0xD2800000, .movz⟩
  | .lslImm _ _ _ => ⟨0xFFC00000, 0xD3400000, .lslImm⟩
  | .lsrImm _ _ _ => ⟨0xFFC0FC00, 0xD340FC00, .lsrImm⟩
  | .stur _ _ _ => ⟨0xFFE00C00, 0xF8000000, .stur⟩
  | .sturb _ _ _ => ⟨0xFFE00C00, 0x38000000, .sturb⟩
  | .sturh _ _ _ => ⟨0xFFE00C00, 0x78000000, .sturh⟩
  | .ldur _ _ _ => ⟨0xFFE00C00, 0xF8400000, .ldur⟩
  | .ldurb _ _ _ => ⟨0xFFE00C00, 0x38400000, .ldurb⟩
  | .ldurh _ _ _ => ⟨0xFFE00C00, 0x78400000, .ldurh⟩
  | .b _ => ⟨0xFC000000, 0x14000000, .b⟩
  | .br _ => brRow lsb
  | .cbz _ _ => ⟨0xFF000000, 0xB4000000, .cbz⟩
  | .cbnz _ _ => ⟨0xFF000000, 0xB5000000, .cbnz⟩
  | .bEq _ => ⟨0xFF000010, 0x54000000, .bCond⟩
  | .bNe _ => ⟨0xFF000010, 0x54000000, .bCond⟩
  | .bGe _ => ⟨0xFF000010, 0x54000000, .bCond⟩
  | .bLt _ => ⟨0xFF000010, 0x54000000, .bCond⟩
  | .bGt _ => ⟨0xFF000010, 0x54000000, .bCond⟩
  | .bLe _ => ⟨0xFF000010, 0x54000000, .bCond⟩
  | .hlt => ⟨0xFFE0001F, 0xD4400000, .hlt⟩

namespace Laws.EncodeMatchesOwnRow

/-- The instruction's own entry takes its word. -/
def Statement (i : Instr) : Prop := ∀ lsb : BrRnLsb, (ownRow lsb i).matchesWord (encodeWith lsb i) = true

/-- An entry takes a word when the two agree on every bit the mask tests. -/
theorem matchesWord_of_bits {row : TableRow} {w : Word}
    (h : ∀ k, k < 32 → (w &&& row.mask).getLsbD k = row.expected.getLsbD k) : row.matchesWord w = true := by
  simp only [TableRow.matchesWord, beq_iff_eq]
  exact BitVec.eq_of_getLsbD_eq h

theorem addImm rd rn sh imm : Statement (.addImm rd rn sh imm) := by
  refine fun _ => matchesWord_of_bits fun k hk => ?_
  interval_cases k <;> simp [ownRow, encodeWith, formatI]

theorem addsImm rd rn sh imm : Statement (.addsImm rd rn sh imm) := by
  refine fun _ => matchesWord_of_bits fun k hk => ?_
  interval_cases k <;> simp [ownRow, encodeWith, formatI]

theorem subImm rd rn sh imm : Statement (.subImm rd rn sh imm) := by
  refine fun _ => matchesWord_of_bits fun k hk => ?_
  interval_cases k <;> simp [ownRow, encodeWith, formatI]

theorem subsImm rd rn sh imm : Statement (.subsImm rd rn sh imm) := by
  refine fun _ => matchesWord_of_bits fun k hk => ?_
  interval_cases k <;> simp [ownRow, encodeWith, formatI]

theorem cmpImm rn sh imm : Statement (.cmpImm rn sh imm) := by
  refine fun _ => matchesWord_of_bits fun k hk => ?_
  interval_cases k <;> simp [ownRow, encodeWith, formatI]

theorem addReg rd rn rm : Statement (.addReg rd rn rm) := by
  refine fun _ => matchesWord_of_bits fun k hk => ?_
  interval_cases k <;> simp [ownRow, encodeWith, formatR]

theorem addsReg rd rn rm : Statement (.addsReg rd rn rm) := by
  refine fun _ => matchesWord_of_bits fun k hk => ?_
  interval_cases k <;> simp [ownRow, encodeWith, formatR]

theorem subReg rd rn rm : Statement (.subReg rd rn rm) := by
  refine fun _ => matchesWord_of_bits fun k hk => ?_
  interval_cases k <;> simp [ownRow, encodeWith, formatR]

theorem subsReg rd rn rm : Statement (.subsReg rd rn rm) := by
  refine fun _ => matchesWord_of_bits fun k hk => ?_
  interval_cases k <;> simp [ownRow, encodeWith, formatR]

theorem cmpReg rn rm : Statement (.cmpReg rn rm) := by
  refine fun _ => matchesWord_of_bits fun k hk => ?_
  interval_cases k <;> simp [ownRow, cmpRegRow, encodeWith, formatR]

theorem andsReg rd rn rm : Statement (.andsReg rd rn rm) := by
  refine fun _ => matchesWord_of_bits fun k hk => ?_
  interval_cases k <;> simp [ownRow, encodeWith, formatR]

theorem eorReg rd rn rm : Statement (.eorReg rd rn rm) := by
  refine fun _ => matchesWord_of_bits fun k hk => ?_
  interval_cases k <;> simp [ownRow, encodeWith, formatR]

theorem orrReg rd rn rm : Statement (.orrReg rd rn rm) := by
  refine fun _ => matchesWord_of_bits fun k hk => ?_
  interval_cases k <;> simp [ownRow, encodeWith, formatR]

theorem mul rd rn rm : Statement (.mul rd rn rm) := by
  refine fun _ => matchesWord_of_bits fun k hk => ?_
  interval_cases k <;> simp [ownRow, encodeWith, formatR]

theorem movz rd imm : Statement (.movz rd imm) := by
  refine fun _ => matchesWord_of_bits fun k hk => ?_
  interval_cases k <;> simp [ownRow, encodeWith, formatM]

theorem lslImm rd rn shift : Statement (.lslImm rd rn shift) := by
  refine fun _ => matchesWord_of_bits fun k hk => ?_
  interval_cases k <;> simp [ownRow, encodeWith, formatS]

theorem lsrImm rd rn shift : Statement (.lsrImm rd rn shift) := by
  refine fun _ => matchesWord_of_bits fun k hk => ?_
  interval_cases k <;> simp [ownRow, encodeWith, formatS]

theorem stur rd rn imm : Statement (.stur rd rn imm) := by
  refine fun _ => matchesWord_of_bits fun k hk => ?_
  interval_cases k <;> simp [ownRow, encodeWith, formatD]

theorem sturb rd rn imm : Statement (.sturb rd rn imm) := by
  refine fun _ => matchesWord_of_bits fun k hk => ?_
  interval_cases k <;> simp [ownRow, encodeWith, formatD]

theorem sturh rd rn imm : Statement (.sturh rd rn imm) := by
  refine fun _ => matchesWord_of_bits fun k hk => ?_
  interval_cases k <;> simp [ownRow, encodeWith, formatD]

theorem ldur rd rn imm : Statement (.ldur rd rn imm) := by
  refine fun _ => matchesWord_of_bits fun k hk => ?_
  interval_cases k <;> simp [ownRow, encodeWith, formatD]

theorem ldurb rd rn imm : Statement (.ldurb rd rn imm) := by
  refine fun _ => matchesWord_of_bits fun k hk => ?_
  interval_cases k <;> simp [ownRow, encodeWith, formatD]

theorem ldurh rd rn imm : Statement (.ldurh rd rn imm) := by
  refine fun _ => matchesWord_of_bits fun k hk => ?_
  interval_cases k <;> simp [ownRow, encodeWith, formatD]

theorem b imm : Statement (.b imm) := by
  refine fun _ => matchesWord_of_bits fun k hk => ?_
  interval_cases k <;> simp [ownRow, encodeWith, formatB26]

theorem br rn : Statement (.br rn) := by
  intro lsb
  cases lsb <;>
    (refine matchesWord_of_bits fun k hk => ?_
     interval_cases k <;> simp [ownRow, brRow, encodeWith, formatBr])

theorem cbz rt imm : Statement (.cbz rt imm) := by
  refine fun _ => matchesWord_of_bits fun k hk => ?_
  interval_cases k <;> simp [ownRow, encodeWith, formatCb]

theorem cbnz rt imm : Statement (.cbnz rt imm) := by
  refine fun _ => matchesWord_of_bits fun k hk => ?_
  interval_cases k <;> simp [ownRow, encodeWith, formatCb]

theorem bEq imm : Statement (.bEq imm) := by
  refine fun _ => matchesWord_of_bits fun k hk => ?_
  interval_cases k <;> simp [ownRow, encodeWith, formatBCond]

theorem bNe imm : Statement (.bNe imm) := by
  refine fun _ => matchesWord_of_bits fun k hk => ?_
  interval_cases k <;> simp [ownRow, encodeWith, formatBCond]

theorem bGe imm : Statement (.bGe imm) := by
  refine fun _ => matchesWord_of_bits fun k hk => ?_
  interval_cases k <;> simp [ownRow, encodeWith, formatBCond]

theorem bLt imm : Statement (.bLt imm) := by
  refine fun _ => matchesWord_of_bits fun k hk => ?_
  interval_cases k <;> simp [ownRow, encodeWith, formatBCond]

theorem bGt imm : Statement (.bGt imm) := by
  refine fun _ => matchesWord_of_bits fun k hk => ?_
  interval_cases k <;> simp [ownRow, encodeWith, formatBCond]

theorem bLe imm : Statement (.bLe imm) := by
  refine fun _ => matchesWord_of_bits fun k hk => ?_
  interval_cases k <;> simp [ownRow, encodeWith, formatBCond]

theorem hlt : Statement .hlt := by
  refine fun _ => matchesWord_of_bits fun k hk => ?_
  interval_cases k <;> simp [ownRow, encodeWith, formatH]

end Laws.EncodeMatchesOwnRow
end Sys2Proof
end

