-- ==== Sys2Proof/Tests/Slice0.lean ====
section
/-! SUPPORT. The model's own tests. Expected results are taken from spec/95_test_vectors.md (its section is named at
each group) or worked out by hand from the rule named, never from the model. The `test_witness_` theorems show, for
each statement of Certificates/Slice0/Obligations.lean that has hypotheses, a state and operands that meet them. -/

namespace Sys2Proof.Tests

open Machine

/-- The start state of spec/95_test_vectors.md: reset with `pc = 0x1000`. -/
def start : State := State.resetAt 0x1000 []

/-- `start` with flags. -/
def flagged (zero negative : Bool) : State := { start with flags := ⟨zero, negative⟩ }

/-- A word of memory beside the program, as the vectors' `W[a]`. -/
def withWord (s : State) (a : Addr) (w : Word) : State := s.setMemory (s.memory.writeWord a w)

/-- The next state satisfies `p`. -/
def gives (r : Result) (p : State → Bool) : Bool :=
  match r with
  | .next t => p t
  | .fault _ => false
  | .refused _ => false

/-- One step of `s` with the word `w` at its program counter. -/
def stepped (w : Nat) (s : State) (p : State → Bool) : Bool := gives (step (s.withFetchWord 32 w)) p

/-! ### Well-formedness: each check refuses an ill-formed term and accepts its neighbour (R77) -/

theorem test_wellFormed_refuses_subsImm_31 : (Instr.subsImm 31 4 0 5).wellFormed = false := by decide
theorem test_wellFormed_refuses_subsReg_31 : (Instr.subsReg 31 1 2).wellFormed = false := by decide
theorem test_wellFormed_accepts_subs_30 :
    (Instr.subsImm 30 31 3 0xFFF).wellFormed = true ∧ (Instr.subsReg 30 31 31).wellFormed = true := by decide
theorem test_wellFormed_accepts_cmp :
    (Instr.cmpImm 4 0 5).wellFormed = true ∧ (Instr.cmpReg 1 2).wellFormed = true := by decide

/-! ### Decoding: every constructor from a word written out in spec/95_test_vectors.md, or built by hand by R94 -/

/-- Section 2, format I: `sf op S 100010 sh imm12 Rn Rd`. -/
theorem test_decode_arith_immediate :
    decode 0b10010001_01_111111111111_00001_00000 = .ok (.addImm 0 1 1 0xFFF) ∧
    decode 0b10110001_00_000000001010_00001_00000 = .ok (.addsImm 0 1 0 10) ∧
    decode 0b11010001_00_000000000001_00010_00010 = .ok (.subImm 2 2 0 1) ∧
    decode 0b11110001_01_000000000001_00010_00011 = .ok (.subsImm 3 2 1 1) ∧
    decode 0b11110001_00_000000000101_00100_11111 = .ok (.cmpImm 4 0 5) := by decide

/-- Section 3, format R: opcode in bits[31:21], Rm, bits[15:10], Rn, Rd. -/
theorem test_decode_register :
    decode 0b10001011000_00010_000000_00001_00000 = .ok (.addReg 0 1 2) ∧
    decode 0b10101011000_00010_000000_00001_00000 = .ok (.addsReg 0 1 2) ∧
    decode 0b11001011000_00010_000000_00001_00000 = .ok (.subReg 0 1 2) ∧
    decode 0b11101011000_00010_000000_00001_00000 = .ok (.subsReg 0 1 2) ∧
    decode 0b11101011000_00010_000000_00001_11111 = .ok (.cmpReg 1 2) ∧
    decode 0b11101010000_00010_000000_00001_00000 = .ok (.andsReg 0 1 2) ∧
    decode 0b11001010000_00010_000000_00001_00000 = .ok (.eorReg 0 1 2) ∧
    decode 0b10101010000_00010_000000_11111_00000 = .ok (.orrReg 0 31 2) ∧
    decode 0b10011011000_00010_011111_00001_00000 = .ok (.mul 0 1 2) := by decide

/-- Sections 4 and 5: MOVZ with selector 1; the two readings of the rotate field. -/
theorem test_decode_move_and_shift :
    decode 0b110100101_01_0001001000110100_00000 = .ok (.movz 0 0x1234) ∧
    decode 0b1101001101_111100_111011_00001_00000 = .ok (.lslImm 0 1 4) ∧
    decode 0b1101001101_000000_000011_00001_00000 = .ok (.lslImm 0 1 0) ∧
    decode 0b1101001101_000100_111111_00001_00000 = .ok (.lsrImm 0 1 4) := by decide

/-- Section 6, format D: size, `111000`, opc, imm9, `00`, Rn, Rt. -/
theorem test_decode_load_store :
    decode 0b11111000000_111111000_00_00001_00010 = .ok (.stur 2 1 0x1F8) ∧
    decode 0b00111000000_111111111_00_00001_00010 = .ok (.sturb 2 1 0x1FF) ∧
    decode 0b01111000000_000000011_00_00001_00010 = .ok (.sturh 2 1 3) ∧
    decode 0b11111000010_000010000_00_11111_00000 = .ok (.ldur 0 31 16) ∧
    decode 0b00111000010_100000000_00_00001_00000 = .ok (.ldurb 0 1 0x100) ∧
    decode 0b01111000010_000000001_00_00001_00000 = .ok (.ldurh 0 1 1) := by decide

/-- Sections 7 to 9: the branches, with BR's register in bits[4:0], and HLT. -/
theorem test_decode_control_flow :
    decode 0b000101_11111111111111111111111111 = .ok (.b 0x3FFFFFF) ∧
    decode 0b1101011000011111000000_00000_00101 = .ok (.br 5) ∧
    decode 0b10110100_0000000000000000010_00010 = .ok (.cbz 2 2) ∧
    decode 0b10110101_1111111111111111110_00010 = .ok (.cbnz 2 0x7FFFE) ∧
    decode 0xD4400000 = .ok .hlt ∧ decode 0xD45FFFE0 = .ok .hlt := by decide

/-- Section 8: the six condition codes. -/
theorem test_decode_conditional :
    decode 0x54000200 = .ok (.bEq 16) ∧ decode 0x54000201 = .ok (.bNe 16) ∧
    decode 0x5400020A = .ok (.bGe 16) ∧ decode 0x5400020B = .ok (.bLt 16) ∧
    decode 0x5400020C = .ok (.bGt 16) ∧ decode 0x5400020D = .ok (.bLe 16) := by decide

/-- Section 8: an unsupported code, and bit 4 set. -/
theorem test_decode_unsupported_condition :
    decode 0x54000202 = .error .unsupportedCondition ∧ decode 0x54000209 = .error .unsupportedCondition ∧
    decode 0x5400020E = .error .unsupportedCondition ∧ decode 0x5400020F = .error .unsupportedCondition ∧
    decode 0x54000210 = .error .noTableEntry := by decide

/-- Sections 3 to 9: words the strict table rejects. -/
theorem test_decode_unrecognized :
    decode 0x00000000 = .error .noTableEntry ∧ decode 0xFFFFFFFF = .error .noTableEntry ∧
    decode 0x8A020020 = .error .noTableEntry ∧ decode 0x8B020C20 = .error .noTableEntry ∧
    decode 0xF9400020 = .error .noTableEntry ∧ decode 0xF8408C20 = .error .noTableEntry ∧
    decode 0xB8400020 = .error .noTableEntry ∧ decode 0x53001C20 = .error .noTableEntry ∧
    decode 0xD63F0000 = .error .noTableEntry ∧ decode 0xD65F03C0 = .error .noTableEntry ∧
    decode 0xD4000001 = .error .noTableEntry ∧ decode 0xD69F03E0 = .error .noTableEntry := by decide

/-- Section 7, the note on row 9: the same two words with BR_RN_LSB = 5. -/
theorem test_decode_br_with_bit5 :
    decodeWith .bit5 0xD61F00A0 = .ok (.br 5) ∧ decodeWith .bit5 0xD61F0005 = .error .noTableEntry := by decide

/-- Sections 2, 6 and 7: the record's sign-extended and scaled immediates. -/
theorem test_record_fields :
    decodeRecord 0x917FFC20 = ⟨.addImm, 0, 1, 0, 0xFFF000, 1⟩ ∧
    decodeRecord 0xF81F8022 = ⟨.stur, 2, 1, 0, 0xFFFFFFFFFFFFFFF8, 0⟩ ∧
    decodeRecord 0x16000000 = ⟨.b, 0, 0, 0, 0xFFFFFFFFF8000000, 0⟩ ∧
    decodeRecord 0xD3441C20 = ⟨.lslImm, 0, 1, 0, 0, 60⟩ ∧
    decodeRecord 0x54000202 = ⟨.unrecognized, 0, 0, 0, 0, 0⟩ := by decide

/-! ### One step per instruction, vectors of sections 2 and 3 -/

theorem test_step_addImm_shifted :
    stepped 0x917FFC20 (start.writeReg 1 1) (fun t => t.readReg 0 == 0xFFF001) = true := by decide
theorem test_step_addImm_to_31_keeps_flags :
    stepped 0x91001C3F ((flagged true false).writeReg 1 9)
      (fun t => t.readReg 31 == 0 && t.flags == ⟨true, false⟩ && t.programCounter == 0x1004) = true := by decide
theorem test_step_addsImm_scenario :
    stepped 0xB1002820 (start.writeReg 1 5) (fun t => t.readReg 0 == 15 && t.flags == ⟨false, false⟩) = true := by
  decide
theorem test_step_addsImm_wraps :
    stepped 0xB1000400 (start.writeReg 0 0xFFFFFFFFFFFFFFFF)
      (fun t => t.readReg 0 == 0 && t.flags == ⟨true, false⟩) = true := by decide
theorem test_step_subImm_wraps :
    stepped 0xD1000442 (flagged true false)
      (fun t => t.readReg 2 == 0xFFFFFFFFFFFFFFFF && t.flags == ⟨true, false⟩) = true := by decide
theorem test_step_subsImm_shifted :
    stepped 0xF1400443 (start.writeReg 2 0x1000)
      (fun t => t.readReg 3 == 0 && t.flags == ⟨true, false⟩) = true := by decide
theorem test_step_cmpImm_negative :
    stepped 0xF100189F (start.writeReg 4 5) (fun t => t.readReg 4 == 5 && t.flags == ⟨false, true⟩) = true := by
  decide
theorem test_step_addReg_same_register :
    stepped 0x8B010021 (((flagged false true).writeReg 1 0x8000000000000000))
      (fun t => t.readReg 1 == 0 && t.flags == ⟨false, true⟩) = true := by decide
theorem test_step_addsReg_sign :
    stepped 0xAB020020 ((start.writeReg 1 0x7FFFFFFFFFFFFFFF).writeReg 2 1)
      (fun t => t.readReg 0 == 0x8000000000000000 && t.flags == ⟨false, true⟩) = true := by decide
theorem test_step_subReg :
    stepped 0xCB020020 ((start.writeReg 1 3).writeReg 2 4)
      (fun t => t.readReg 0 == 0xFFFFFFFFFFFFFFFF && t.flags == ⟨false, false⟩) = true := by decide
theorem test_step_subsReg :
    stepped 0xEB020020 ((start.writeReg 1 3).writeReg 2 4)
      (fun t => t.readReg 0 == 0xFFFFFFFFFFFFFFFF && t.flags == ⟨false, true⟩) = true := by decide
theorem test_step_cmpReg_has_no_overflow_flag :
    stepped 0xEB02003F ((start.writeReg 1 0x8000000000000000).writeReg 2 1)
      (fun t => t.readReg 31 == 0 && t.flags == ⟨false, false⟩) = true := by decide
theorem test_step_andsReg :
    stepped 0xEA020020 (((flagged true false).writeReg 1 0xFF).writeReg 2 0xF)
      (fun t => t.readReg 0 == 0xF && t.flags == ⟨false, false⟩) = true := by decide
theorem test_step_eorReg :
    stepped 0xCA020020 (((flagged true false).writeReg 1 0xFF00).writeReg 2 0xFF0)
      (fun t => t.readReg 0 == 0xF0F0 && t.flags == ⟨true, false⟩) = true := by decide
theorem test_step_orrReg :
    stepped 0xAA020020 (((flagged false true).writeReg 1 0xFF00).writeReg 2 0xFF0)
      (fun t => t.readReg 0 == 0xFFF0 && t.flags == ⟨false, true⟩) = true := by decide
theorem test_step_mul_low_half :
    stepped 0x9B027C20 ((start.writeReg 1 0xFFFFFFFFFFFFFFFE).writeReg 2 0xFFFFFFFFFFFFFFFD)
      (fun t => t.readReg 0 == 6) = true := by decide

/-! ### Sections 4 and 5 -/

theorem test_step_movz_replaces_the_register :
    stepped 0xD2E24680 ((flagged false true).writeReg 0 0xFFFFFFFFFFFFFFFF)
      (fun t => t.readReg 0 == 0x1234 && t.flags == ⟨false, true⟩) = true := by decide
theorem test_step_lslImm :
    stepped 0xD37CEC20 (start.writeReg 1 0xF00000000000000F) (fun t => t.readReg 0 == 0xF0) = true := by decide
theorem test_step_lslImm_other_spare_bits :
    stepped 0xD3400C20 (start.writeReg 1 0xFF) (fun t => t.readReg 0 == 0xFF) = true := by decide
theorem test_step_lsrImm_is_logical :
    stepped 0xD344FC20 (start.writeReg 1 0xF00000000000000F)
      (fun t => t.readReg 0 == 0xF00000000000000) = true := by decide
theorem test_step_lsrImm_63 :
    stepped 0xD37FFC20 (start.writeReg 1 0x8000000000000000) (fun t => t.readReg 0 == 1) = true := by decide

/-! ### Section 6 -/

theorem test_step_stur_unaligned :
    stepped 0xF8003022 (withWord (withWord (withWord ((start.writeReg 1 0x2000).writeReg 2 0x1122334455667788)
        0x2000 0xAAAAAAAA) 0x2004 0xBBBBBBBB) 0x2008 0xCCCCCCCC)
      (fun t => t.memory.readWord 0x2000 == 0x88AAAAAA && t.memory.readWord 0x2004 == 0x44556677 &&
        t.memory.readWord 0x2008 == 0xCC112233) = true := by decide
theorem test_step_sturb_lane_3_below :
    stepped 0x381FF022 (withWord (withWord ((start.writeReg 1 0x2000).writeReg 2 0xAB) 0x1FFC 0x11223344)
        0x2000 0x55555555)
      (fun t => t.memory.readWord 0x1FFC == 0xAB223344 && t.memory.readWord 0x2000 == 0x55555555) = true := by
  decide
theorem test_step_sturh_odd_address :
    stepped 0x78003022 (withWord (withWord ((start.writeReg 1 0x2000).writeReg 2 0x1ABCD) 0x2000 0x11223344)
        0x2004 0x55555555)
      (fun t => t.memory.readWord 0x2000 == 0xABCD3344 && t.memory.readWord 0x2004 == 0x55555555) = true := by
  decide
theorem test_step_ldur_unaligned :
    stepped 0xF8402020 (withWord (withWord (withWord (start.writeReg 1 0x2000) 0x2000 0x55667788)
        0x2004 0x11223344) 0x2008 0x99AABBCC)
      (fun t => t.readReg 0 == 0xBBCC112233445566 && t.readReg 1 == 0x2000) = true := by decide
theorem test_step_ldurb_negative_offset :
    stepped 0x38500020 (withWord (start.writeReg 1 0x2100) 0x2000 0x112233F4)
      (fun t => t.readReg 0 == 0xF4) = true := by decide
theorem test_step_ldurh_odd_address :
    stepped 0x78401020 (withWord ((start.writeReg 1 0x2000).writeReg 0 0xFFFFFFFFFFFFFFFF) 0x2000 0xF1223344)
      (fun t => t.readReg 0 == 0x3344) = true := by decide

/-- R64: the high half of a doubleword stored at `0xFFFFFFFFFFFFFFFC` lies at address 0. -/
theorem test_step_stur_wraps_the_address_space :
    stepped 0xF81FC3E2 (start.writeReg 2 0x1122334455667788)
      (fun t => t.memory.readWord 0xFFFFFFFFFFFFFFFC == 0x55667788 && t.memory.readWord 0 == 0x11223344) = true := by
  decide

/-- R228: the halfword store's calls are the fetch, the aligned read and the aligned write, in this order. -/
theorem test_calls_of_sturh :
    stepCalls ((withWord ((start.writeReg 1 0x2000).writeReg 2 0x1ABCD) 0x2000 0x11223344).withFetchWord 32
      0x78001022) = [.read 0x1000, .read 0x2000, .write 0x2000 0x1122ABCD] := by decide

/-! ### Sections 7 and 8 -/

theorem test_step_b_wraps_below_zero :
    stepped 0x17FFFFFE (State.resetAt 4 []) (fun t => t.programCounter == 0xFFFFFFFFFFFFFFFC) = true := by decide
theorem test_step_br_low_bits :
    stepped 0xD61F0005 (start.writeReg 5 0x4000) (fun t => t.programCounter == 0x4000) = true := by decide
theorem test_step_br_assembled_word_goes_to_x0 :
    stepped 0xD61F00A0 ((start.writeReg 5 0x4000).writeReg 0 0x8000) (fun t => t.programCounter == 0x8000) = true := by
  decide
theorem test_step_cbz_taken :
    stepped 0xB4000042 start (fun t => t.programCounter == 0x1008) = true := by decide
theorem test_step_cbz_tests_64_bits :
    stepped 0xB4000042 (start.writeReg 2 0x100000000) (fun t => t.programCounter == 0x1004) = true := by decide
theorem test_step_cbnz_taken_backward :
    stepped 0xB5FFFFC2 (start.writeReg 2 0x8000000000000000) (fun t => t.programCounter == 0xFF8) = true := by decide
theorem test_step_cbnz_on_31_falls_through :
    stepped 0xB500005F start (fun t => t.programCounter == 0x1004) = true := by decide
theorem test_step_bEq_bNe :
    stepped 0x54000200 (flagged true false) (fun t => t.programCounter == 0x1040) = true ∧
    stepped 0x54000201 (flagged true false) (fun t => t.programCounter == 0x1004) = true := by decide
theorem test_step_bGe_bLt :
    stepped 0x5400020A (flagged true false) (fun t => t.programCounter == 0x1040) = true ∧
    stepped 0x5400020B (flagged false true) (fun t => t.programCounter == 0x1040) = true := by decide
theorem test_step_bGt_bLe :
    stepped 0x5400020C (flagged true false) (fun t => t.programCounter == 0x1004) = true ∧
    stepped 0x5400020D (flagged true false) (fun t => t.programCounter == 0x1040) = true := by decide
theorem test_step_bGt_scenario :
    stepped 0x5400020C (flagged false false) (fun t => t.programCounter == 0x1040) = true := by decide

/-! ### Section 9 and the step driver -/

theorem test_step_hlt :
    stepped 0xD4400000 ((flagged true true).writeReg 3 9)
      (fun t => t.halted && t.programCounter == 0x1004 && t.readReg 3 == 9 && t.flags == ⟨true, true⟩) = true := by
  decide
theorem test_step_unrecognized_is_a_no_op :
    stepped 0 ((flagged true false).writeReg 7 7)
      (fun t => t.programCounter == 0x1004 && t.readReg 7 == 7 && t.flags == ⟨true, false⟩ && !t.halted) = true := by
  decide
theorem test_kind_of_unrecognized : stepKind start = some .unrecognized := by decide
theorem test_halted_step_changes_nothing :
    step { start with halted := true } = .next { start with halted := true } := rfl
theorem test_misaligned_step_is_refused :
    step (State.resetAt 0x1002 []) = .refused (.misalignedProgramCounter 0x1002) := rfl

/-- The host's two questions on one word: what it decodes to, and where it is placed at reset. -/
theorem test_decodeTableWord : decodeTableWord 32 0xD29FFFE0 = some (.movz 0 0xFFFF) := by decide
theorem test_placed_at_reset_runs :
    gives (step (State.reset.withFetchWord 32 0xD29FFFE0)) (fun t => t.readReg 0 == 0xFFFF) = true := by decide

/-! ### Witnesses: the decoder's statements -/

theorem test_witness_DecodeOfEncode :
    (Instr.subsReg 30 31 0).wellFormed = true ∧ (Instr.lslImm 0 1 0).wellFormed = true := by decide
theorem test_witness_DecodedInstructionsAreWellFormed :
    decodeWith .bit0 0xF1000442 = .ok (.subsImm 2 2 0 1) ∧ decodeWith .bit5 0xD61F00A0 = .ok (.br 5) := by decide
theorem test_witness_EncodeRestoresEveryReadBit :
    decode 0xD3441C20 = .ok (.lslImm 0 1 60) ∧ decode 0xD2E24680 = .ok (.movz 0 0x1234) := by decide
theorem test_witness_ExactlyThreePairsOfRowsOverlap :
    (decodeTable .bit0)[0]? = some ⟨0xFFE0FC1F, 0xEB00001F, .cmpReg⟩ ∧
    ((decodeTable .bit0)[6]?.map (·.matchesWord 0xEB02003F)) = some true ∧
    ((decodeTable .bit0)[28]?.map (·.matchesWord 0xEB02003F)) = some false := by decide
theorem test_witness_RecordIsThatOfTheDecodedInstruction :
    decode 0xD61F0009 = .ok (.br 9) ∧ decode 0x54000202 = .error .unsupportedCondition ∧
    (decodeRecord 0x00000000).kind = .unrecognized := by decide
theorem test_witness_ConditionCodesResolve :
    (0x2#4) ∉ [0x0#4, 0x1#4, 0xA#4, 0xB#4, 0xC#4, 0xD#4] ∧ (0x9#4) ∉ [0x0#4, 0x1#4, 0xA#4, 0xB#4, 0xC#4, 0xD#4] ∧
    (0xE#4) ∉ [0x0#4, 0x1#4, 0xA#4, 0xB#4, 0xC#4, 0xD#4] ∧
    (0xF#4) ∉ [0x0#4, 0x1#4, 0xA#4, 0xB#4, 0xC#4, 0xD#4] := by decide
theorem test_witness_ArithImmediateExtractor :
    (decodeRecord 0x917FFC20).kind = .addImm ∧ (decodeRecord 0xB1002820).kind = .addsImm ∧
    (decodeRecord 0x91C01420).shift = 3 ∧ (decodeRecord 0xF17FFC9F).kind = .cmpImm := by decide
theorem test_witness_RegisterExtractor :
    (decodeRecord 0xEB1F003F).kind = .cmpReg ∧ (decodeRecord 0x9B027C20).kind = .mul := by decide
theorem test_witness_MoveWideExtractor : (decodeRecord 0xD2E24680).kind = .movz := by decide
theorem test_witness_ShiftExtractor :
    (decodeRecord 0xD3400020).kind = .lslImm ∧ (decodeRecord 0xD37FF820).kind = .lslImm ∧
    (decodeRecord 0xD340FC20).kind = .lsrImm ∧ (decodeRecord 0xD37FFC20).kind = .lsrImm := by decide
theorem test_witness_MemoryExtractor :
    (decodeRecord 0x384FF020).kind = .ldurb ∧ (decodeRecord 0x38500020).kind = .ldurb := by decide
theorem test_witness_ControlFlowExtractor :
    (decodeRecord 0x15FFFFFF).kind = .b ∧ (decodeRecord 0x16000000).kind = .b ∧
    (decodeRecord 0xD61F001F).kind = .br ∧ (decodeRecord 0xB4800002).kind = .cbz ∧
    (decodeRecord 0x54FFFFC1).kind = .bNe := by decide
theorem test_witness_UnsetRecordFieldsAreZero :
    (decodeRecord 0xD45FFFE0).kind = .hlt ∧ (decodeRecord 0xFFFFFFFF).kind = .unrecognized ∧
    (decodeRecord 0x17FFFFFF).kind = .b ∧ (decodeRecord 0xF8402020).kind = .ldur ∧
    (decodeRecord 0xD344FC3F).kind = .lsrImm ∧ (decodeRecord 0xD61F03FF).kind = .br := by decide

/-! ### Witnesses: the results -/

theorem test_witness_MultiplyResult :
    (0x9B020C20 : Word) &&& 0xFFE08000 = 0x9B000000 ∧ (0x9B020C20 : Word) &&& 0x00007C00 ≠ 0x00007C00 := by decide
theorem test_witness_MoveWideResult :
    (0xF2800020 : Word) &&& 0xFF800000 = 0xF2800000 ∧ (0x92800020 : Word) &&& 0xFF800000 = 0x92800000 ∧
    (0x52800020 : Word) &&& 0xFF800000 = 0x52800000 := by decide
theorem test_witness_LeftShiftResult : (0 : BitVec 6) ≠ 63 ∧ (62 : BitVec 6) ≠ 63 := by decide
theorem test_witness_RightShiftResult : (0x9340FC20 : Word) &&& 0xFFC0FC00 = 0x9340FC00 := by decide
theorem test_witness_UnconditionalBranchTarget : (0x94000002 : Word) &&& 0xFC000000 = 0x94000000 := by decide
theorem test_witness_CompareAndBranchTarget : (0x34000042 : Word) &&& 0xFF000000 = 0x34000000 := by decide
theorem test_witness_HaltSetsHaltedOnly :
    (0xD4200000 : Word) &&& 0xFF000000 = 0xD4000000 ∧ (0xD4200000 : Word) &&& 0x00E0001F ≠ 0x00400000 ∧
    (0xD4400001 : Word) &&& 0xFF000000 = 0xD4000000 ∧ (0xD4400001 : Word) &&& 0x00E0001F ≠ 0x00400000 := by decide
theorem test_witness_ConditionalBranchesFollowTheFlags :
    ((flagged false false).flags.zero = false ∧ (flagged false false).flags.negative = false) ∧
    (flagged true false).flags.zero = true ∧ (flagged false true).flags.negative = true ∧
    (flagged true true).flags = ⟨true, true⟩ := by decide

/-! ### Witnesses: memory -/

/-- X1 = 0x2001, X2 = 0x1122334455667788. -/
def storing : State := (start.writeReg 1 0x2001).writeReg 2 0x1122334455667788

theorem test_witness_DoublewordStoreThenLoad :
    ∃ t u, exec (.stur 2 1 0) storing = .next t ∧ exec (.ldur 0 1 0) t = .next u ∧
      effectiveAddress t 1 0 = effectiveAddress storing 1 0 ∧ (0 : RegIdx) ≠ zeroReg ∧
      u.readReg 0 = 0x1122334455667788 := ⟨_, _, rfl, rfl, rfl, by decide, by decide⟩
theorem test_witness_NarrowStoreThenLoad_byte :
    ∃ t u, exec (.sturb 2 1 0) storing = .next t ∧ exec (.ldurb 0 1 0) t = .next u ∧
      effectiveAddress t 1 0 = effectiveAddress storing 1 0 ∧ (0 : RegIdx) ≠ zeroReg ∧
      u.readReg 0 = 0x88 := ⟨_, _, rfl, rfl, rfl, by decide, by decide⟩
theorem test_witness_NarrowStoreThenLoad_halfword :
    ∃ t u, exec (.sturh 2 1 0) storing = .next t ∧ exec (.ldurh 0 1 0) t = .next u ∧
      effectiveAddress t 1 0 = effectiveAddress storing 1 0 ∧ (0 : RegIdx) ≠ zeroReg ∧
      u.readReg 0 = 0x7788 := ⟨_, _, rfl, rfl, rfl, by decide, by decide⟩

/-- STUR X2, [X1, #4] at `pc = X1 = 0x1000`, the word of R94 with imm9 = 4. -/
def overwriting : State :=
  ((start.writeReg 1 0x1000).writeReg 2 0xD4400000).withFetchWord 32 0xF8004022

theorem test_witness_NextFetchSeesTheStore :
    overwriting.halted = false ∧ overwriting.programCounter.toNat % 4 = 0 ∧
    decode overwriting.fetch = .ok (.stur 2 1 4) ∧
    effectiveAddress overwriting 1 4 = overwriting.programCounter + 4 := by decide
theorem test_witness_ReportedCallsAreTheMemoryEffect :
    (∃ t, step overwriting = .next t) ∧ overwriting.halted = false ∧
    (∃ t, step { start with halted := true } = .next t) := ⟨⟨_, rfl⟩, rfl, ⟨_, rfl⟩⟩
theorem test_witness_CanonicalMemoriesThatReadAlikeAreEqual :
    Memory.wf [(0, 1), (0xFFFFFFFFFFFFFFFF, 2)] = true ∧ Memory.wf [(0, 0)] = false ∧
    Memory.wf [(1, 1), (0, 1)] = false ∧ Memory.wf [(0x10000000000000000, 1)] = false := by decide

/-! ### Witnesses: the step -/

/-- A step of `start` with `MOVZ X0, #0xFFFF` at its program counter. -/
def moving : State := start.withFetchWord 32 0xD29FFFE0

theorem test_witness_HaltedMachineStaysAsItIs : ({ start with halted := true } : State).halted = true := rfl
theorem test_witness_HaltedIsWrittenByHltAndReadByNoInstruction :
    (∃ t, step (start.withFetchWord 32 0xD4400000) = .next t ∧ t.halted = true) ∧
    (∃ t, step moving = .next t ∧ t.halted = false) ∧ ({ start with halted := true } : State).halted = true ∧
    (∃ t, exec (.movz 0 0xFFFF) start = .next t) ∧ Instr.movz 0 0xFFFF ≠ .hlt :=
  ⟨⟨_, rfl, rfl⟩, ⟨_, rfl, rfl⟩, rfl, ⟨_, rfl⟩, by decide⟩
theorem test_witness_UnrecognizedWordIsANoOp_no_entry :
    start.halted = false ∧ start.programCounter.toNat % 4 = 0 ∧
    ∀ row ∈ decodeTable .bit0, start.fetch &&& row.mask ≠ row.expected := by decide
theorem test_witness_UnrecognizedWordIsANoOp_condition :
    (start.withFetchWord 32 0x54000202).halted = false ∧
    (start.withFetchWord 32 0x54000202).programCounter.toNat % 4 = 0 ∧
    lookupTag (decodeTable .bit0) (start.withFetchWord 32 0x54000202).fetch = some .bCond ∧
    (start.withFetchWord 32 0x54000202).fetch.toNat % 16 ∉ [0x0, 0x1, 0xA, 0xB, 0xC, 0xD] := by decide
theorem test_witness_StepRunsTheDecodedInstruction :
    moving.halted = false ∧ moving.programCounter.toNat % 4 = 0 ∧ decode moving.fetch = .ok (.movz 0 0xFFFF) ∧
    (Instr.movz 0 0xFFFF).wellFormed = true ∧ ∃ t, exec (.movz 0 0xFFFF) moving = .next t :=
  ⟨by decide, by decide, by decide, by decide, ⟨_, rfl⟩⟩
theorem test_witness_PlacedWordIsFetched :
    ¬ (0x1004 - start.programCounter).toNat < 4 ∧ ¬ (0xFFF - start.programCounter).toNat < 4 := by decide
theorem test_witness_StepCompletesUnlessMisaligned :
    start.Steppable ∧ ¬ (State.resetAt 0x1002 []).Steppable := by
  unfold State.Steppable; decide
theorem test_witness_StepKeepsTheInvariant : overwriting.Inv ∧ ∃ t, step overwriting = .next t :=
  ⟨⟨by decide, by decide⟩, ⟨_, rfl⟩⟩
theorem test_witness_ResetHasTheInvariant : Memory.wf [(0x1000, 0xE0), (0x1001, 0xFF)] = true := by decide
theorem test_witness_RegisterThirtyOneIsZeroAfterEveryStep :
    ∃ s t : State, s.registers[31] = 7 ∧ s.halted = false ∧ step s = .next t ∧ t.registers[31] = 0 :=
  ⟨{ moving with registers := moving.registers.set 31 7 }, _, by decide, rfl, rfl, by decide⟩
theorem test_witness_OnlyBranchToRegisterBreaksAlignment_kept :
    ∃ t, moving.programCounter.toNat % 4 = 0 ∧ step moving = .next t ∧ t.programCounter.toNat % 4 = 0 :=
  ⟨_, by decide, rfl, by decide⟩
theorem test_witness_OnlyBranchToRegisterBreaksAlignment_broken :
    ∃ s t : State, s.programCounter.toNat % 4 = 0 ∧ step s = .next t ∧ decode s.fetch = .ok (.br 5) ∧
      t.programCounter = 0x4002 :=
  ⟨(start.writeReg 5 0x4002).withFetchWord 32 0xD61F0005, _, by decide, rfl, by decide, by decide⟩
theorem test_witness_ZeroAndNegativeNeverBothBecomeTrue :
    ¬ ((flagged true false).flags.zero = true ∧ (flagged true false).flags.negative = true) ∧
    ∃ t, step (flagged true false) = .next t := ⟨by decide, ⟨_, rfl⟩⟩

/-! ### Witnesses: the statements over all instructions -/

theorem test_witness_FlagsChangeOnlyInTheSevenWriters :
    (∃ t, exec (.cmpImm 4 0 6) start = .next t ∧ t.flags = ⟨false, true⟩) ∧
    flagResult start (.cmpImm 4 0 6) = some 0xFFFFFFFFFFFFFFFA ∧
    (∃ t, exec (.mul 0 1 2) start = .next t) ∧ setsFlags (.mul 0 1 2) = false :=
  ⟨⟨_, rfl, by decide⟩, by decide, ⟨_, rfl⟩, rfl⟩
theorem test_witness_OnlyTheDestinationRegisterChanges :
    (∃ t, exec (.ldurb 0 1 0) start = .next t) ∧ destination (.ldurb 0 1 0) ≠ some 1 ∧
    (∃ t, exec (.stur 2 1 0) start = .next t) ∧ destination (.stur 2 1 0) ≠ some 2 :=
  ⟨⟨_, rfl⟩, by decide, ⟨_, rfl⟩, by decide⟩
theorem test_witness_OnlyBranchesLeaveTheDefaultAdvance :
    ∃ t, exec (.b 2) start = .next t ∧ t.programCounter ≠ start.programCounter + 4 := ⟨_, rfl, by decide⟩
theorem test_witness_OnlyStoredBytesChange :
    (∃ t, exec (.sturh 2 1 0) storing = .next t) ∧ storedBytes storing (.sturh 2 1 0) = some (0x2000, 2) ∧
    ¬ ((0x2002 : Addr) - 0x2000).toNat < 2 ∧ ¬ ((0x1FFF : Addr) - 0x2000).toNat < 2 ∧
    (∃ t, exec (.ldurh 2 1 0) storing = .next t) ∧ storedBytes storing (.ldurh 2 1 0) = none :=
  ⟨⟨_, rfl⟩, by decide, by decide, by decide, ⟨_, rfl⟩, rfl⟩
theorem test_witness_OnlyConditionalBranchesReadTheFlags :
    readsFlags (.cbz 2 2) = false ∧ ∃ t, exec (.cbz 2 2) start = .next t := ⟨rfl, ⟨_, rfl⟩⟩
/-- MEM_VALID narrowed to the addresses below 0x2000, with BR_RN_LSB = 5. -/
def narrowed : Parameters := { Parameters.ofBrRnLsb .bit5 with memValid := fun a => a.ult 0x2000 }

theorem test_tableOrdered_refuses_swapped_rows :
    tableOrdered [⟨0xFFC00000, 0xD3400000, .lslImm⟩, ⟨0xFFC0FC00, 0xD340FC00, .lsrImm⟩] = false ∧
    tableOrdered (decodeTable .bit0) = true := by decide

/-- R57: a doubleword store whose second word begins at the first invalid address; a byte store just below it. -/
theorem test_step_outside_memory :
    stepWith narrowed ((start.writeReg 1 0x1FFC).withFetchWord 32 0xF8000022) = .refused (.outsideMemory 0x2000) ∧
    gives (stepWith narrowed ((start.writeReg 1 0x1FFF).withFetchWord 32 0x38000022))
      (fun t => t.programCounter == 0x1004) = true := ⟨rfl, by decide⟩
/-- Section 7, the note on row 9: with BR_RN_LSB = 5 the step jumps to X5. -/
theorem test_step_br_with_bit5 :
    gives (stepWith narrowed ((start.writeReg 5 0x1800).withFetchWord 32 0xD61F00A0))
      (fun t => t.programCounter == 0x1800) = true := by decide

theorem test_witness_AccessOutsideMemValidIsRefused_inside :
    start.halted = false ∧ start.programCounter.toNat % 4 = 0 ∧
    ∀ c ∈ cycleCalls narrowed start, ∀ a ∈ c.touched, narrowed.memValid a = true :=
  ⟨rfl, by decide, firstOutside_eq_none.1 rfl⟩
theorem test_witness_AccessOutsideMemValidIsRefused_outside :
    narrowed.memValid ((State.resetAt 0x2000 []).programCounter + BitVec.ofNat 64 0) = false ∧
    narrowed.memValid ((State.resetAt 0x1FFC []).programCounter + BitVec.ofNat 64 3) = true ∧
    (∃ c ∈ cycleCalls narrowed (State.resetAt 0x2000 []), ∃ a ∈ c.touched, narrowed.memValid a = false) ∧
    (State.resetAt 0x2000 []).halted = false ∧ (State.resetAt 0x2000 []).programCounter.toNat % 4 = 0 :=
  ⟨by decide, by decide, ⟨_, List.mem_cons_self, _, List.mem_cons_self, rfl⟩, rfl, by decide⟩
theorem test_witness_StepUnderAnyParameters :
    (∀ a, (Parameters.ofBrRnLsb .bit5).memValid a = true) ∧ moving.halted = false ∧
    moving.programCounter.toNat % 4 = 0 ∧ moving.Inv ∧
    decodeIn (Parameters.ofBrRnLsb .bit5).decodeTable .bit5 moving.fetch = .ok (.movz 0 0xFFFF) ∧
    decodeIn (Parameters.ofBrRnLsb .bit5).decodeTable .bit5 start.fetch = .error .noTableEntry ∧
    (∃ t, stepWith (Parameters.ofBrRnLsb .bit5) moving = .next t) ∧
    (Parameters.ofBrRnLsb .bit5).admitted = true :=
  ⟨fun _ => rfl, by decide, by decide, ⟨by decide, by decide⟩, by decide, by decide, ⟨_, rfl⟩, by decide⟩
theorem test_witness_ResetState : (31 : Nat) < 32 ∧ (State.resetAt 0x400000 [(0x400000, 0x21)]).registers[31] = 0 := by
  decide

end Sys2Proof.Tests
end

section
/-! PROOFS. The statements of spec/00_scope.md rule R6: a step under any choice of the parameters. First the facts
about the memory calls, the step and the executor that they rest on; then the two statements. -/

namespace Sys2Proof.Machine

/-! ### The bytes a step touches -/

/-- A `read_word` touches the four bytes from its address (R41). -/
theorem mem_touched_read {a b : Addr} : b ∈ (MemCall.read a).touched ↔ (b - a).toNat < 4 := by
  simp only [MemCall.touched, List.mem_cons, List.not_mem_nil, or_false]
  constructor
  · rintro (rfl | rfl | rfl | rfl) <;> bv_omega
  · intro h
    bv_omega

/-- The calls of a list are searched in order. -/
theorem firstOutside_cons (valid : Addr → Bool) (c : MemCall) (calls : List MemCall) :
    firstOutside valid (c :: calls) = (c.touched.find? (!valid ·)).or (firstOutside valid calls) := by
  simp [firstOutside, List.find?_append]

/-- `firstOutside` answers as soon as one touched byte is outside MEM_VALID. -/
theorem exists_firstOutside_eq_some {valid : Addr → Bool} {calls : List MemCall}
    (h : ∃ c ∈ calls, ∃ a ∈ c.touched, valid a = false) : ∃ a, firstOutside valid calls = some a := by
  obtain ⟨c, hc, a, ha, hout⟩ := h
  refine Option.ne_none_iff_exists'.1 fun hnone => ?_
  simp [firstOutside_eq_none.1 hnone c hc a ha] at hout

/-- A fetch that touches a byte outside MEM_VALID is found before any data access (R57). -/
theorem firstOutside_cycleCalls_of_fetch {p : Parameters} {s : State} {b : Addr}
    (hb : (b - s.programCounter).toNat < 4) (hout : p.memValid b = false) :
    ∃ a, firstOutside p.memValid (cycleCalls p s) = some a ∧ (a - s.programCounter).toNat < 4 := by
  have hfound : ((MemCall.read s.programCounter).touched.find? (!p.memValid ·)).isSome :=
    List.find?_isSome.2 ⟨b, mem_touched_read.2 hb, by simp [hout]⟩
  obtain ⟨a, ha⟩ := Option.isSome_iff_exists.1 hfound
  exact ⟨a, by rw [cycleCalls, firstOutside_cons, ha, Option.some_or],
    mem_touched_read.1 (List.mem_of_find?_eq_some ha)⟩

/-! ### The step of a running machine at an aligned program counter -/

/-- Such a step is R24's sequence, unless a byte it touches is outside MEM_VALID. -/
theorem stepWith_of_running {p : Parameters} {s : State} (hrun : s.halted = false)
    (hpc : s.programCounter.toNat % 4 = 0) :
    stepWith p s = (firstOutside p.memValid (cycleCalls p s)).elim (cycleWith p s)
      (fun a => .refused (.outsideMemory a)) := by
  rcases stepWith_cases p s with ⟨hhalt, _⟩ | ⟨_, hmis, _⟩ | ⟨_, _, ⟨a, hout, hs⟩ | ⟨hin, hs⟩⟩
  · simp [hrun] at hhalt
  · exact absurd hpc hmis
  · rw [hs, hout]; rfl
  · rw [hs, hin]; rfl

theorem cycleWith_of_decode_ok {p : Parameters} {s : State} {i : Instr} (h : p.decode s.fetch = .ok i) :
    cycleWith p s = commitResult (exec i s) := by
  rw [cycleWith, h]; rfl

theorem cycleWith_of_decode_error {p : Parameters} {s : State} {e : Unrecognized}
    (h : p.decode s.fetch = .error e) : cycleWith p s = .next s.advance.commit := by
  rw [cycleWith, h]; rfl

/-- R192's no-op with its commit: only the default advance shows. -/
theorem jumpsTo_advance_commit (s : State) : JumpsTo s s.advance.commit (s.programCounter + 4) :=
  ⟨rfl, fun r => by simp, rfl, rfl, fun _ => rfl⟩

/-! ### What an instruction can answer -/

/-- The shapes of what `exec` answers from `s`, one per shared operation of Machine/Ops.lean and
Machine/Flags.lean, a store by its width, and HLT's. -/
inductive ExecShape (s : State) : Result → Prop
  | write (rd : RegIdx) (v : Doubleword) : ExecShape s (writeResult s rd v)
  | writeNZ (rd : RegIdx) (v : Doubleword) : ExecShape s (writeResultNZ s rd v)
  | compare (v : Doubleword) : ExecShape s (compareResult s v)
  | store8 (a : Addr) (v : Byte) : ExecShape s (storeResult s (s.memory.write8 a v))
  | store16 (a : Addr) (v : Halfword) : ExecShape s (storeResult s (s.memory.write16 a v))
  | store64 (a : Addr) (v : Doubleword) : ExecShape s (storeResult s (s.memory.write64 a v))
  | branch (taken : Bool) (target : Addr) : ExecShape s (branchResult s taken target)
  | halt : ExecShape s (.next s.advance.setHalted)

/-- Every instruction answers in one of the shapes. -/
theorem execShape_exec (i : Instr) (s : State) : ExecShape s (exec i s) := by
  cases i with
  | addImm | subImm | addReg | subReg | eorReg | orrReg | mul | movz | lslImm | lsrImm => exact .write _ _
  | ldur | ldurb | ldurh => exact .write _ _
  | addsImm | subsImm | addsReg | subsReg | andsReg => exact .writeNZ _ _
  | cmpImm | cmpReg => exact .compare _
  | sturb => exact .store8 _ _
  | sturh => exact .store16 _ _
  | stur => exact .store64 _ _
  | b | br | cbz | cbnz | bEq | bNe | bGe | bLt | bGt | bLe => exact .branch _ _
  | hlt => exact .halt

/-- Every instruction keeps the store in canonical form. -/
theorem wf_memory_of_exec {i : Instr} {s t : State} (hwf : s.memory.wf = true) (h : exec i s = .next t) :
    t.memory.wf = true := by
  have hshape := execShape_exec i s
  generalize exec i s = o at h hshape
  cases hshape with
  | write => obtain ⟨_, hmem⟩ := writeResult_next h; rwa [hmem]
  | writeNZ => obtain ⟨_, hmem⟩ := writeResultNZ_next h; rwa [hmem]
  | compare => obtain ⟨_, _, hmem⟩ := compareResult_next h; rwa [hmem]
  | store8 => cases h; exact wf_write8 _ _ hwf
  | store16 => cases h; exact wf_write16 _ _ hwf
  | store64 => cases h; exact wf_write64 _ _ hwf
  | branch => obtain ⟨_, _, hmem⟩ := branchResult_next h; rwa [hmem]
  | halt => cases h; exact hwf

/-! ### The invariant -/

/-- The commit makes register 31 0, so it needs only the store in canonical form (R25). -/
theorem inv_commit {s : State} (hwf : s.memory.wf = true) : s.commit.Inv := ⟨hwf, by simp⟩

theorem inv_resetAt {pc : Addr} {m : Memory} (hwf : m.wf = true) : (State.resetAt pc m).Inv :=
  ⟨hwf, by simp [State.resetAt]⟩

theorem inv_of_cycleWith {p : Parameters} {s t : State} (hinv : s.Inv) (h : cycleWith p s = .next t) : t.Inv := by
  rcases cycleWith_cases p s with ⟨i, _, hc⟩ | ⟨e, _, hc⟩ <;> rw [hc] at h
  · obtain ⟨u, hu, rfl⟩ := commitResult_next.1 h
    exact inv_commit (wf_memory_of_exec hinv.1 hu)
  · cases h
    exact inv_commit hinv.1

/-- Every step keeps the invariant, whatever the parameters. -/
theorem inv_of_stepWith {p : Parameters} {s t : State} (hinv : s.Inv) (h : stepWith p s = .next t) : t.Inv := by
  rcases stepWith_cases p s with ⟨_, hs⟩ | ⟨_, _, hs⟩ | ⟨_, _, ⟨a, _, hs⟩ | ⟨_, hs⟩⟩ <;> rw [hs] at h
  · cases h; exact hinv
  · cases h
  · cases h
  · exact inv_of_cycleWith hinv h

/-! ### The parameters -/

theorem admitted_iff {p : Parameters} :
    p.admitted = true ↔ tableOrdered p.decodeTable = true ∧ p.resetPc.toNat % 4 = 0 ∧ p.memInit.wf = true := by
  simp [Parameters.admitted, and_assoc]

/-- The default table has the order R75 asks for, with either value of BR_RN_LSB, and so this model's choices are
admitted. -/
theorem admitted_ofBrRnLsb (lsb : BrRnLsb) : (Parameters.ofBrRnLsb lsb).admitted = true := by
  cases lsb with
  | bit0 => decide
  | bit5 => decide

/-! ### The statements -/

/-- Settles O59: the step of a running aligned machine is decided by `firstOutside`, which searches the fetch's four
bytes first. -/
theorem accessOutsideMemValidIsRefused : Obligations.AccessOutsideMemValidIsRefused := by
  intro p s hrun hpc
  have hstep := stepWith_of_running (p := p) hrun hpc
  refine ⟨fun hin => ?_, fun hout => ?_, fun k hk hout => ?_⟩
  · rw [hstep, firstOutside_eq_none.2 hin]; rfl
  · obtain ⟨a, ha⟩ := exists_firstOutside_eq_some hout
    exact ⟨a, by rw [hstep, ha]; rfl, firstOutside_eq_some ha⟩
  · obtain ⟨a, ha, hnear⟩ := firstOutside_cycleCalls_of_fetch (p := p) (s := s) (by bv_omega) hout
    exact ⟨a, by rw [hstep, ha]; rfl, hnear⟩

/-- Settles O60: with every address valid the step is R24's sequence; the invariant goes through the commit and the
shape of what an instruction answers. -/
theorem stepUnderAnyParameters : Obligations.StepUnderAnyParameters := by
  refine ⟨fun p s hvalid hrun hpc => ?_, fun p s t => inv_of_stepWith, fun p hp => ?_, admitted_ofBrRnLsb,
    fun s => rfl, rfl⟩
  · have hstep : stepWith p s = cycleWith p s := by
      rw [stepWith_of_running hrun hpc, firstOutside_eq_none.2 fun _ _ a _ => hvalid a]; rfl
    rw [hstep]
    exact ⟨fun i hi => cycleWith_of_decode_ok hi,
      fun e he => ⟨_, cycleWith_of_decode_error he, jumpsTo_advance_commit s⟩⟩
  · obtain ⟨_, hpc, hwf⟩ := admitted_iff.1 hp
    exact ⟨inv_resetAt hwf, rfl, hpc, fun _ => rfl⟩

end Sys2Proof.Machine
end

section
/-! PROOFS. The statements of spec/10_state.md: what a step keeps and what an instruction may change. First the one
update each instruction makes of Current, with the shared fields it never reads; then the alignment of the program
counter and what a completed step is; then the statements. -/

namespace Sys2Proof.Machine

/-! ### The status of a state: its flags and its halted bit -/

/-- `s` with other flags and another halted bit. -/
def State.withStatus (s : State) (f : Flags) (h : Bool) : State := { s with flags := f, halted := h }

@[simp] theorem advance_withStatus (s : State) (f : Flags) (h : Bool) :
    (s.withStatus f h).advance = s.advance.withStatus f h := rfl
@[simp] theorem setNZ_withStatus (s : State) (f : Flags) (h : Bool) (r : Doubleword) :
    (s.withStatus f h).setNZ r = (s.setNZ r).withStatus (flagsOf r) h := rfl

@[simp] theorem writeReg_withStatus (s : State) (f : Flags) (h : Bool) (i : RegIdx) (v : Doubleword) :
    (s.withStatus f h).writeReg i v = (s.writeReg i v).withStatus f h := by
  unfold State.writeReg; split <;> rfl

theorem FlagsSay.of_flags_eq {t : State} {r : Doubleword} (h : t.flags = flagsOf r) : FlagsSay t r := by
  have hsays := flagsOf_says t r
  rwa [FlagsSay, setNZ_flags, ← h] at hsays

/-- A result is not both 0 and negative (93_implementation_defined.md U14). -/
theorem FlagsSay.not_zero_and_negative {t : State} {r : Doubleword} (h : FlagsSay t r) :
    ¬ (t.flags.zero = true ∧ t.flags.negative = true) := by
  obtain ⟨hzero, hneg⟩ := h
  rw [hzero, hneg, decide_eq_true_eq, decide_eq_true_eq]
  rintro ⟨rfl, hlt⟩
  exact absurd hlt (by decide)

/-! ### The update an instruction makes -/

/-- What an instruction makes of Current, with every operand already read from it (R23): the shapes of `ExecShape` as
data, so that one effect can be applied to states that differ in their status. -/
inductive Effect where
  | write (rd : RegIdx) (v : Doubleword)
  | writeNZ (rd : RegIdx) (v : Doubleword)
  | compare (v : Doubleword)
  | store (m : Memory)
  | branch (taken : Bool) (target : Addr)
  | halt

namespace Effect

/-- Next, before the commit. -/
def apply (s : State) : Effect → State
  | write rd v => s.advance.writeReg rd v
  | writeNZ rd v => (s.advance.writeReg rd v).setNZ v
  | compare v => s.advance.setNZ v
  | store m => s.advance.setMemory m
  | branch taken target => if taken then s.advance.setPc target else s.advance
  | halt => s.advance.setHalted

/-- The register the effect writes. -/
def destination : Effect → Option RegIdx
  | write rd _ | writeNZ rd _ => some rd
  | compare _ | store _ | branch _ _ | halt => none

/-- The result the effect sets the flags from. -/
def flagResult : Effect → Option Doubleword
  | writeNZ _ v | compare v => some v
  | write _ _ | store _ | branch _ _ | halt => none

/-- The effect may write the program counter. -/
def isBranch : Effect → Bool
  | branch _ _ => true
  | write _ _ | writeNZ _ _ | compare _ | store _ | halt => false

/-- The effect sets the halted bit. -/
def isHalt : Effect → Bool
  | halt => true
  | write _ _ | writeNZ _ _ | compare _ | store _ | branch _ _ => false

/-- The flags after the effect, from those before. -/
def flagsAfter (e : Effect) (f : Flags) : Flags := e.flagResult.elim f flagsOf

theorem flagsAfter_of_none {e : Effect} (h : e.flagResult = none) (f : Flags) : e.flagsAfter f = f := by
  rw [flagsAfter, h]; rfl

theorem flagsAfter_of_some {e : Effect} {r : Doubleword} (h : e.flagResult = some r) (f : Flags) :
    e.flagsAfter f = flagsOf r := by
  rw [flagsAfter, h]; rfl

/-- The status is never an operand: other flags and another halted bit before change only the status after. -/
theorem apply_withStatus (e : Effect) (s : State) (f : Flags) (h : Bool) :
    e.apply (s.withStatus f h) = (e.apply s).withStatus (e.flagsAfter f) (h || e.isHalt) := by
  cases e with
  | write | writeNZ => simp [apply, flagsAfter, flagResult, isHalt]
  | compare | store => simp only [isHalt, Bool.or_false]; rfl
  | branch taken => simp only [isHalt, Bool.or_false]; cases taken <;> rfl
  | halt => simp only [isHalt, Bool.or_true]; rfl

theorem flags_apply (e : Effect) (s : State) : (e.apply s).flags = e.flagsAfter s.flags :=
  congrArg State.flags (e.apply_withStatus s s.flags s.halted)

theorem halted_apply (e : Effect) (s : State) : (e.apply s).halted = (s.halted || e.isHalt) :=
  congrArg State.halted (e.apply_withStatus s s.flags s.halted)

theorem flagsSay_apply {e : Effect} {r : Doubleword} (h : e.flagResult = some r) (s : State) :
    FlagsSay (e.apply s) r :=
  .of_flags_eq ((e.flags_apply s).trans (flagsAfter_of_some h _))

theorem flags_apply_of_none {e : Effect} (h : e.flagResult = none) (s : State) : (e.apply s).flags = s.flags :=
  (e.flags_apply s).trans (flagsAfter_of_none h _)

theorem readReg_apply {e : Effect} {r : RegIdx} (hr : e.destination ≠ some r) (s : State) :
    (e.apply s).readReg r = s.readReg r := by
  cases e with
  | write rd | writeNZ rd =>
    have hne : r ≠ rd := fun h => hr (h ▸ rfl)
    simp [apply, readReg_writeReg, hne]
  | compare | store | halt => rfl
  | branch taken => cases taken <;> rfl

theorem programCounter_apply {e : Effect} (h : e.isBranch = false) (s : State) :
    (e.apply s).programCounter = s.programCounter + 4 := by
  cases e with
  | write | writeNZ => simp [apply]
  | compare | store | halt => rfl
  | branch => cases h

/-- A branch changes nothing but the program counter (R170). -/
theorem frame_apply_of_isBranch {e : Effect} (h : e.isBranch = true) (s : State) :
    SameRegisters s (e.apply s) ∧ (e.apply s).flags = s.flags ∧ (e.apply s).memory = s.memory ∧
      (e.apply s).halted = s.halted := by
  cases e with
  | branch taken target =>
    obtain ⟨⟨_, hregs, hflags, hhalted, _⟩, _, hmem⟩ :=
      branchResult_next (rfl : branchResult s taken target = .next _)
    exact ⟨hregs, hflags, hmem, hhalted⟩
  | write | writeNZ | compare | store | halt => cases h

end Effect

/-- `e` is the effect of `i` from `s`: `i` answers the update `e` makes, whatever the halted bit and, unless `i`
reads them, whatever the flags; and the tables of Safety.lean say of `i` what `e` does. -/
structure HasEffect (i : Instr) (s : State) (e : Effect) : Prop where
  exec_eq : exec i s = .next (e.apply s)
  exec_withStatus : ∀ (f : Flags) (h : Bool), (readsFlags i = true → f = s.flags) →
    exec i (s.withStatus f h) = .next (e.apply (s.withStatus f h))
  destination_eq : destination i = e.destination
  setsFlags_eq : setsFlags i = e.flagResult.isSome
  flagResult_eq : flagResult s i = e.flagResult
  isBranch_eq : isBranch i = e.isBranch
  hlt_eq : decide (i = .hlt) = e.isHalt

/-- Every instruction completes with one of the six effects. -/
theorem exists_hasEffect (i : Instr) (s : State) : ∃ e, HasEffect i s e := by
  cases i with
  | addImm | subImm | addReg | subReg | eorReg | orrReg | mul | movz | lslImm | lsrImm | ldur | ldurb | ldurh =>
    exact ⟨.write _ _, rfl, fun _ _ _ => rfl, rfl, rfl, rfl, rfl, rfl⟩
  | addsImm | subsImm | addsReg | subsReg | andsReg =>
    exact ⟨.writeNZ _ _, rfl, fun _ _ _ => rfl, rfl, rfl, rfl, rfl, rfl⟩
  | cmpImm | cmpReg => exact ⟨.compare _, rfl, fun _ _ _ => rfl, rfl, rfl, rfl, rfl, rfl⟩
  | stur | sturb | sturh => exact ⟨.store _, rfl, fun _ _ _ => rfl, rfl, rfl, rfl, rfl, rfl⟩
  | b | br => exact ⟨.branch true _, rfl, fun _ _ _ => rfl, rfl, rfl, rfl, rfl, rfl⟩
  | cbz | cbnz => exact ⟨.branch _ _, rfl, fun _ _ _ => rfl, rfl, rfl, rfl, rfl, rfl⟩
  | bEq | bNe | bGe | bLt | bGt | bLe =>
    exact ⟨.branch _ _, rfl, fun f _ hf => by rw [hf rfl]; rfl, rfl, rfl, rfl, rfl, rfl⟩
  | hlt => exact ⟨.halt, rfl, fun _ _ _ => rfl, rfl, rfl, rfl, rfl, rfl⟩

/-- A completed instruction's answer is its effect. -/
theorem exists_effect_of_exec {i : Instr} {s t : State} (h : exec i s = .next t) :
    ∃ e, HasEffect i s e ∧ t = e.apply s := by
  obtain ⟨e, he⟩ := exists_hasEffect i s
  exact ⟨e, he, Host.Outcome.next.inj (h.symm.trans he.exec_eq)⟩

theorem halted_of_exec {i : Instr} {s t : State} (h : exec i s = .next t) :
    t.halted = true ↔ s.halted = true ∨ i = .hlt := by
  obtain ⟨e, he, rfl⟩ := exists_effect_of_exec h
  rw [e.halted_apply, ← he.hlt_eq, Bool.or_eq_true, decide_eq_true_eq]

/-! ### The program counter -/

/-- A multiple of 4 plus a scaled offset is a multiple of 4, the wrap modulo 2^64 included (R16). -/
theorem toNat_add_mul_four_mod {a : Addr} (x : Addr) (h : a.toNat % 4 = 0) : (a + x * 4).toNat % 4 = 0 := by
  rw [BitVec.toNat_add, BitVec.toNat_mul, show (4 : Addr).toNat = 4 from rfl]
  omega

theorem advance_aligned {s : State} (h : s.programCounter.toNat % 4 = 0) :
    s.advance.programCounter.toNat % 4 = 0 :=
  toNat_add_mul_four_mod 1 h

theorem branchResult_aligned {s t : State} {taken : Bool} {target : Addr}
    (hpc : s.programCounter.toNat % 4 = 0) (htarget : target.toNat % 4 = 0)
    (h : branchResult s taken target = .next t) : t.programCounter.toNat % 4 = 0 := by
  obtain ⟨⟨hjump, _⟩, _⟩ := branchResult_next h
  rw [hjump]
  split
  · exact htarget
  · exact advance_aligned hpc

/-- Every instruction but BR keeps the program counter a multiple of 4; BR makes it the register's value (R172). -/
theorem aligned_or_br_of_exec {i : Instr} {s t : State} (hpc : s.programCounter.toNat % 4 = 0)
    (h : exec i s = .next t) :
    t.programCounter.toNat % 4 = 0 ∨ ∃ rn, i = .br rn ∧ t.programCounter = s.readReg rn := by
  cases hbr : isBranch i with
  | false =>
    obtain ⟨e, he, rfl⟩ := exists_effect_of_exec h
    rw [Effect.programCounter_apply (he.isBranch_eq.symm.trans hbr)]
    exact .inl (advance_aligned hpc)
  | true =>
    cases i with
    | br rn =>
      obtain ⟨⟨hjump, _⟩, _⟩ := branchResult_next h
      exact .inr ⟨rn, rfl, hjump⟩
    | b | cbz | cbnz | bEq | bNe | bGe | bLt | bGt | bLe =>
      exact .inl (branchResult_aligned hpc (toNat_add_mul_four_mod _ hpc) h)
    | _ => cases hbr

/-! ### The kind of a decoded word -/

/-- The resolver's two forms give a condition code the same kind (R87). -/
theorem kind_of_resolveCondition {cond : BitVec 4} {imm19 : BitVec 19} {i : Instr}
    (h : resolveCondition cond imm19 = .ok i) : conditionKind cond = i.kind ∧ i.kind ≠ .unrecognized := by
  unfold resolveCondition at h
  unfold conditionKind
  split_ifs at h ⊢ <;> cases h <;> exact ⟨rfl, nofun⟩

/-- An entry's two extractors give a word the same kind (R80 to R87). -/
theorem kind_extractRecord {lsb : BrRnLsb} {tag : TableTag} {w : Word} {i : Instr}
    (h : extractInstr lsb tag w = .ok i) : (extractRecord lsb tag w).kind = i.kind := by
  cases tag with
  | bCond =>
    obtain ⟨hkind, hne⟩ := kind_of_resolveCondition h
    simp [extractRecord, extractConditional, hkind, hne]
  | _ => cases h; rfl

theorem kind_decodeRecord {w : Word} {i : Instr} (h : decode w = .ok i) : (decodeRecord w).kind = i.kind := by
  unfold decode decodeWith decodeIn at h
  unfold decodeRecord decodeRecordIn
  cases htag : lookupTag (decodeTable brRnLsb) w with
  | none => rw [htag] at h; cases h
  | some tag => rw [htag] at h; exact kind_extractRecord h

/-! ### A completed step -/

/-- What a step request that completes can have done: nothing in a halted machine (R26), or an instruction and the
commit, or R192's no-op and the commit. -/
inductive Completed (s : State) : State → Prop
  | halted (hhalt : s.halted = true) : Completed s s
  | executed {i : Instr} {u : State} (hrun : s.halted = false) (hdec : decode s.fetch = .ok i)
      (hexec : exec i s = .next u) : Completed s u.commit
  | unrecognized {e : Unrecognized} (hrun : s.halted = false) (hdec : decode s.fetch = .error e) :
      Completed s s.advance.commit

theorem completed_of_step {s t : State} (h : step s = .next t) : Completed s t := by
  rcases step_cases s with ⟨hhalt, hs⟩ | ⟨_, _, hs⟩ | ⟨hrun, _, hs⟩ <;> rw [hs] at h
  · cases h; exact .halted hhalt
  · cases h
  · rcases cycle_cases s with ⟨i, hdec, hc⟩ | ⟨e, hdec, hc⟩ <;> rw [hc] at h
    · obtain ⟨u, hexec, rfl⟩ := commitResult_next.1 h
      exact .executed hrun hdec hexec
    · cases h; exact .unrecognized hrun hdec

/-! ### The statements on the step -/

/-- Settles O48: this machine's step is a step under parameters, and each of those keeps the invariant. -/
theorem stepKeepsTheInvariant : Obligations.StepKeepsTheInvariant :=
  fun _ _ hinv h => inv_of_stepWith (p := Parameters.default) hinv h

/-- Settles O51: a completed step advances, or goes to a target a scaled offset away, or is a BR. -/
theorem onlyBranchToRegisterBreaksAlignment : Obligations.OnlyBranchToRegisterBreaksAlignment := by
  intro s t hpc h
  cases completed_of_step h with
  | halted => exact .inl hpc
  | executed _ hdec hexec =>
    rcases aligned_or_br_of_exec hpc hexec with haligned | ⟨rn, rfl, hreg⟩
    · exact .inl haligned
    · rw [commit_programCounter, hreg]
      by_cases hal : (s.readReg rn).toNat % 4 = 0
      · exact .inl hal
      · exact .inr ⟨rn, hdec, hal, rfl⟩
  | unrecognized => exact .inl (advance_aligned hpc)

theorem halted_of_step {s t : State} (h : step s = .next t) :
    t.halted = true ↔ s.halted = true ∨ decode s.fetch = .ok .hlt := by
  cases completed_of_step h with
  | halted hhalt => simp [hhalt]
  | executed _ hdec hexec => rw [commit_halted, halted_of_exec hexec, hdec, Except.ok.injEq]
  | unrecognized _ hdec => simp [hdec]

/-- The halted bit before an instruction other than HLT shows in the halted bit after, and nowhere else. -/
theorem exec_with_halted {i : Instr} {s t : State} (h : Bool) (hi : i ≠ .hlt) (hexec : exec i s = .next t) :
    exec i { s with halted := h } = .next { t with halted := h } := by
  obtain ⟨e, he, rfl⟩ := exists_effect_of_exec hexec
  have hhalt : e.isHalt = false := by rw [← he.hlt_eq, decide_eq_false hi]
  calc exec i (s.withStatus s.flags h) = .next (e.apply (s.withStatus s.flags h)) :=
        he.exec_withStatus s.flags h fun _ => rfl
    _ = .next ((e.apply s).withStatus (e.apply s).flags h) := by
        rw [e.apply_withStatus, e.flags_apply, hhalt, Bool.or_false]

/-- Settles O43: each completed step by its cases; the halted bit is no operand of any effect. -/
theorem haltedIsWrittenByHltAndReadByNoInstruction :
    Obligations.HaltedIsWrittenByHltAndReadByNoInstruction := by
  refine ⟨fun s t => halted_of_step, fun s hhalt => ⟨?_, ?_⟩, fun i s t h => exec_with_halted h,
    fun s h => ⟨s.advance.setHalted, rfl, rfl, rfl⟩⟩
  · simp [stepRecord_eq, hhalt]
  · rcases step_cases s with ⟨_, hs⟩ | ⟨hrun, _⟩ | ⟨hrun, _⟩
    · exact hs
    · simp [hhalt] at hrun
    · simp [hhalt] at hrun

/-- Settles O50: a running machine's step ends in the commit. -/
theorem registerThirtyOneIsZeroAfterEveryStep : Obligations.RegisterThirtyOneIsZeroAfterEveryStep := by
  intro s t hrun h
  refine ⟨?_, readReg_zeroReg t, readReg_zeroReg s⟩
  cases completed_of_step h with
  | halted hhalt => simp [hrun] at hhalt
  | executed => simp
  | unrecognized => simp

theorem not_zero_and_negative_of_exec {i : Instr} {s t : State}
    (hs : ¬ (s.flags.zero = true ∧ s.flags.negative = true)) (h : exec i s = .next t) :
    ¬ (t.flags.zero = true ∧ t.flags.negative = true) := by
  obtain ⟨e, _, rfl⟩ := exists_effect_of_exec h
  cases hr : e.flagResult with
  | none => rwa [Effect.flags_apply_of_none hr]
  | some r => exact (Effect.flagsSay_apply hr s).not_zero_and_negative

/-- Settles O52: flags that change are those of one result. -/
theorem zeroAndNegativeNeverBothBecomeTrue : Obligations.ZeroAndNegativeNeverBothBecomeTrue := by
  refine ⟨by decide, fun s t hs h => ?_⟩
  cases completed_of_step h with
  | halted => exact hs
  | executed _ _ hexec => rw [commit_flags]; exact not_zero_and_negative_of_exec hs hexec
  | unrecognized => exact hs

/-- Settles O45: a running step from an aligned program counter is R24's sequence, and the two forms of the decoder
agree on the kind. -/
theorem stepRunsTheDecodedInstruction : Obligations.StepRunsTheDecodedInstruction := by
  intro s i hrun hpc hdec _
  have hstep : step s = commitResult (exec i s) := by
    change stepWith Parameters.default s = _
    rw [stepWith_of_running hrun hpc, default_memValid, firstOutside_all]
    exact cycleWith_of_decode_ok hdec
  refine ⟨hstep, ?_, fun t ht => by rw [hstep, ht]; rfl⟩
  rw [stepKind, stepRecord_eq, if_pos ⟨hrun, hpc⟩, Option.map_some, kind_decodeRecord hdec]

/-! ### The statements on the instructions -/

/-- Settles O53: the flags after are those of the effect's result, where it has one. -/
theorem flagsChangeOnlyInTheSevenWriters : Obligations.FlagsChangeOnlyInTheSevenWriters := by
  intro i s t h
  obtain ⟨e, he, rfl⟩ := exists_effect_of_exec h
  rw [he.setsFlags_eq, he.flagResult_eq]
  exact ⟨Option.isSome_iff_exists, fun r hr => Effect.flagsSay_apply hr s,
    fun hnone => Effect.flags_apply_of_none (by simpa using hnone) s⟩

/-- Settles O54: an effect writes no register but its destination. -/
theorem onlyTheDestinationRegisterChanges : Obligations.OnlyTheDestinationRegisterChanges := by
  intro i s t r h hr
  obtain ⟨e, he, rfl⟩ := exists_effect_of_exec h
  exact Effect.readReg_apply (he.destination_eq ▸ hr) s

/-- Settles O55: every effect but a branch advances, and a branch changes the program counter only. -/
theorem onlyBranchesLeaveTheDefaultAdvance : Obligations.OnlyBranchesLeaveTheDefaultAdvance := by
  intro i s t h hpc
  obtain ⟨e, he, rfl⟩ := exists_effect_of_exec h
  cases hbr : e.isBranch with
  | false => exact absurd (Effect.programCounter_apply hbr s) hpc
  | true => exact ⟨he.isBranch_eq.trans hbr, Effect.frame_apply_of_isBranch hbr s⟩

/-- Settles O57: the flags are no operand of an effect, and only a conditional branch picks its effect by them. -/
theorem onlyConditionalBranchesReadTheFlags : Obligations.OnlyConditionalBranchesReadTheFlags := by
  intro i s t f hreads h
  obtain ⟨e, he, rfl⟩ := exists_effect_of_exec h
  refine ⟨_, he.exec_withStatus f s.halted (by simp [hreads]), ?_⟩
  rw [e.apply_withStatus, ← e.halted_apply]
  exact ⟨rfl, rfl, rfl, rfl⟩

/-! ### The statements on reset -/

/-- Settles O49. -/
theorem resetHasTheInvariant : Obligations.ResetHasTheInvariant :=
  ⟨inv_resetAt wf_reset, fun _ _ => inv_resetAt⟩

theorem readReg_resetAt (pc : Addr) (m : Memory) (r : RegIdx) : (State.resetAt pc m).readReg r = 0 := by
  unfold State.readReg
  split
  · rfl
  · exact Vector.getElem_replicate _

/-- Settles O58: reset fills every register with 0. -/
theorem resetState : Obligations.ResetState :=
  ⟨fun pc m _ hk r => ⟨Vector.getElem_replicate hk, readReg_resetAt pc m r, rfl, rfl, rfl, fun _ => rfl⟩,
    rfl, rfl⟩

end Sys2Proof.Machine
end

section
/-! PROOFS. The statements of spec/20_memory.md: the canonical form of the store, the word a fetch reads after the
loader or a store wrote it, and the bytes an instruction leaves as they were. First the facts about canonical lists
and overlapping words that they rest on; then the statements. -/

namespace Sys2Proof.Machine

/-! ### Reading a canonical list -/

/-- The canonical form of a list, taken apart at its first cell. -/
theorem wfAbove_cons {k low : Nat} {v : Byte} {rest : Memory} :
    Memory.wfAbove ((k, v) :: rest) low = true ↔
      low ≤ k ∧ k < 2 ^ 64 ∧ v ≠ unlistedByte ∧ rest.wfAbove (k + 1) = true := by
  simp [Memory.wfAbove, and_assoc]

theorem readAt_cons_self (k : Nat) (v : Byte) (rest : Memory) : Memory.readAt ((k, v) :: rest) k = v :=
  if_pos rfl

theorem readAt_cons_of_ne {k a : Nat} (h : k ≠ a) (v : Byte) (rest : Memory) :
    Memory.readAt ((k, v) :: rest) a = rest.readAt a :=
  if_neg h

/-- No address below the bound of a canonical list is listed. -/
theorem readAt_of_lt {m : Memory} {low a : Nat} (hwf : m.wfAbove low = true) (ha : a < low) :
    m.readAt a = unlistedByte := by
  induction m generalizing low with
  | nil => rfl
  | cons cell rest ih =>
    obtain ⟨k, v⟩ := cell
    obtain ⟨hlow, _, _, hrest⟩ := wfAbove_cons.1 hwf
    rw [readAt_cons_of_ne (by omega), ih hrest (by omega)]

/-- A canonical list that reads alike with one whose first cell is at `k` has its own first cell at `k` or below: the
byte `k` must be listed in it. -/
theorem exists_cons_of_readAt_eq {k low : Nat} {v : Byte} {rest n : Memory}
    (hm : Memory.wfAbove ((k, v) :: rest) low = true) (hn : n.wfAbove low = true)
    (hread : Memory.readAt ((k, v) :: rest) k = n.readAt k) : ∃ k' v' rest', n = (k', v') :: rest' ∧ k' ≤ k := by
  obtain ⟨_, _, hv, _⟩ := wfAbove_cons.1 hm
  rw [readAt_cons_self] at hread
  cases n with
  | nil => exact absurd hread hv
  | cons cell rest' =>
    obtain ⟨k', v'⟩ := cell
    obtain ⟨_, hk', hv', hrest'⟩ := wfAbove_cons.1 hn
    refine ⟨k', v', rest', rfl, not_lt.1 fun hlt => hv (hread.trans ?_)⟩
    exact readAt_of_lt (wfAbove_cons.2 ⟨le_refl k', hk', hv', hrest'⟩) hlt

/-- Two canonical lists that read alike have the same first cell, and so on down the lists. -/
theorem eq_of_readAt_eq {m n : Memory} {low : Nat} (hm : m.wfAbove low = true) (hn : n.wfAbove low = true)
    (hread : ∀ a < 2 ^ 64, m.readAt a = n.readAt a) : m = n := by
  induction m generalizing n low with
  | nil =>
    cases n with
    | nil => rfl
    | cons cell rest =>
      obtain ⟨_, hk, _⟩ := wfAbove_cons.1 hn
      obtain ⟨_, _, _, hnil, _⟩ := exists_cons_of_readAt_eq hn hm (hread _ hk).symm
      cases hnil
  | cons cell rest ih =>
    obtain ⟨k, v⟩ := cell
    obtain ⟨_, hk, _, hrest⟩ := wfAbove_cons.1 hm
    obtain ⟨k', v', rest', rfl, hle⟩ := exists_cons_of_readAt_eq hm hn (hread k hk)
    obtain ⟨_, hk', _, hrest'⟩ := wfAbove_cons.1 hn
    obtain ⟨_, _, _, hcons, hge⟩ := exists_cons_of_readAt_eq hn hm (hread k' hk').symm
    cases hcons
    obtain rfl : k = k' := le_antisymm hge hle
    have hv : v = v' := by simpa only [readAt_cons_self] using hread k hk
    have htail : rest = rest' := ih hrest hrest' fun a ha => by
      by_cases hak : k = a
      · rw [readAt_of_lt hrest (by omega), readAt_of_lt hrest' (by omega)]
      · simpa only [readAt_cons_of_ne hak] using hread a ha
    rw [hv, htail]

/-! ### Words that lie beside each other -/

/-- `write_word` four bytes up leaves the word at `a` as it was, the wrap modulo 2^64 included (R41, R42). -/
theorem readWord_writeWord_add_four (m : Memory) (a : Addr) (w : Word) :
    (m.writeWord (a + 4) w).readWord a = m.readWord a := by
  have hbyte : ∀ j : Addr, j.toNat < 4 → (m.writeWord (a + 4) w).readByte (a + j) = m.readByte (a + j) :=
    fun j hj => by rw [readByte_writeWord, if_neg (by bv_omega)]
  have h0 := hbyte 0 (by decide)
  rw [add_zero] at h0
  rw [Memory.readWord, Memory.readWord, h0, hbyte 1 (by decide), hbyte 2 (by decide), hbyte 3 (by decide)]

/-- `read_word` at the address of a doubleword store gives the low half (R52). -/
theorem readWord_write64 (m : Memory) (a : Addr) (v : Doubleword) :
    (m.write64 a v).readWord a = v.extractLsb' 0 32 := by
  rw [Memory.write64, readWord_writeWord_add_four, readWord_writeWord]

/-! ### The placed word -/

/-- Placing a word of 32 bits is one `write_word` at the program counter. -/
theorem withFetchWord_memory (s : State) (w : Word) :
    (s.withFetchWord 32 w.toNat).memory = s.memory.writeWord s.programCounter w := by
  rw [State.withFetchWord, setMemory_memory, Nat.mod_eq_of_lt w.isLt, BitVec.ofNat_toNat, BitVec.setWidth_eq]

/-! ### What an instruction leaves of memory -/

/-- An instruction that stores nothing leaves the list of cells itself as it was. -/
theorem memory_of_exec {i : Instr} {s t : State} (hstore : storedBytes s i = none) (h : exec i s = .next t) :
    t.memory = s.memory := by
  cases i with
  | addImm | subImm | addReg | subReg | eorReg | orrReg | mul | movz | lslImm | lsrImm | ldur | ldurb | ldurh =>
    obtain ⟨_, hmem⟩ := writeResult_next h; exact hmem
  | addsImm | subsImm | addsReg | subsReg | andsReg =>
    obtain ⟨_, hmem⟩ := writeResultNZ_next h; exact hmem
  | cmpImm | cmpReg => obtain ⟨_, _, hmem⟩ := compareResult_next h; exact hmem
  | b | br | cbz | cbnz | bEq | bNe | bGe | bLt | bGt | bLe =>
    obtain ⟨_, _, hmem⟩ := branchResult_next h; exact hmem
  | hlt => cases h; rfl
  | stur | sturb | sturh => cases hstore

/-- A store leaves every byte outside those it names as it was (R65). -/
theorem readByte_of_exec_store {i : Instr} {s t : State} {a b : Addr} {n : Nat}
    (hstore : storedBytes s i = some (a, n)) (h : exec i s = .next t) (hb : ¬ (b - a).toNat < n) :
    t.memory.readByte b = s.memory.readByte b := by
  cases i with
  | stur =>
    cases hstore; cases h
    exact (readByte_write64 _ _ _ _).trans (if_neg hb)
  | sturb =>
    cases hstore; cases h
    exact (readByte_write8 _ _ _ _).trans (if_neg (by rintro rfl; simp at hb))
  | sturh =>
    cases hstore; cases h
    exact (readByte_write16 _ _ _ _).trans (if_neg hb)
  | _ => cases hstore

/-! ### The statements -/

/-- Settles O36: an address of the store is a number below 2^64, so the two lists read alike at every number that a
canonical list can hold. -/
theorem canonicalMemoriesThatReadAlikeAreEqual : Obligations.CanonicalMemoriesThatReadAlikeAreEqual := by
  intro m n hm hn hread
  refine eq_of_readAt_eq hm hn fun a ha => ?_
  simpa only [Memory.readByte, BitVec.toNat_ofNat, Nat.mod_eq_of_lt ha] using hread (BitVec.ofNat 64 a)

/-- Settles O46: the fetch is the `read_word` that answers that `write_word`. -/
theorem placedWordIsFetched : Obligations.PlacedWordIsFetched := by
  intro s w
  refine ⟨?_, fun a ha => ?_⟩
  · rw [State.fetch, withFetchWord_programCounter, withFetchWord_memory, readWord_writeWord]
  · rw [withFetchWord_memory, readByte_writeWord, if_neg ha]

/-- Settles O56: a kind without stored bytes by the memory its result shape keeps, each store by what its width
writes. -/
theorem onlyStoredBytesChange : Obligations.OnlyStoredBytesChange :=
  fun _ _ _ h => ⟨fun hnone => memory_of_exec hnone h, fun _ _ hsome _ hb => readByte_of_exec_store hsome h hb⟩

/-- Settles O34: the step is the STUR and the commit, and the next fetch reads the word at the address of the store. -/
theorem nextFetchSeesTheStore : Obligations.NextFetchSeesTheStore := by
  intro rd rn imm9 s hrun hpc hdec haddr
  have hexec : exec (.stur rd rn imm9) s =
      .next (s.advance.setMemory (s.memory.write64 (s.programCounter + 4) (s.readReg rd))) := by
    rw [← haddr]; rfl
  obtain ⟨_, _, hstep⟩ := stepRunsTheDecodedInstruction s _ hrun hpc hdec rfl
  refine ⟨_, hstep _ hexec, rfl, ?_⟩
  calc (Memory.readWord (s.memory.write64 (s.programCounter + 4) (s.readReg rd)) (s.programCounter + 4)).toNat
      = ((s.readReg rd).extractLsb' 0 32).toNat := by rw [readWord_write64]
    _ = (s.readReg rd).toNat % 2 ^ 32 := by rw [BitVec.extractLsb'_toNat, Nat.shiftRight_zero]

end Sys2Proof.Machine
end

section
/-! PROOFS. What the statements of spec/30_encoding.md rest on: words as disjoint fields; what an entry's test says, and
which entries of the table one word can match; and what the ordered table makes of a word. -/

namespace Sys2Proof

/-! ### Fields of a word

A layout of R94 is a word of fixed bits with its fields put at their places. -/

/-- The word with `v` in the bits from `s` on and 0 elsewhere. -/
def placed {n : Nat} (v : BitVec n) (s : Nat) : Word := v.setWidth 32 <<< s

theorem getLsbD_placed {n : Nat} (v : BitVec n) (s : Nat) {k : Nat} (hk : k < 32) :
    (placed v s).getLsbD k = (decide (s ≤ k) && v.getLsbD (k - s)) := by
  simp [placed, hk, ← decide_not]

/-- A field read where it was put. -/
@[simp] theorem extract_placed_self {n s : Nat} (v : BitVec n) (h : s + n ≤ 32) :
    (placed v s).extractLsb' s n = v := by
  apply BitVec.eq_of_getLsbD_eq
  intro k hk
  simp [getLsbD_placed v s (by omega : s + k < 32), hk]

/-- A field read beside where another was put. -/
@[simp] theorem extract_placed_of_disjoint {n m s t : Nat} (v : BitVec n) (hs : s + m ≤ 32)
    (h : s + m ≤ t ∨ t + n ≤ s) : (placed v t).extractLsb' s m = 0 := by
  apply BitVec.eq_of_getLsbD_eq
  intro k hk
  have hout : (decide (t ≤ s + k) && v.getLsbD (s + k - t)) = false := by
    rcases h with h | h
    · rw [decide_eq_false (by omega), Bool.false_and]
    · rw [BitVec.getLsbD_of_ge _ _ (by omega), Bool.and_false]
  simp [getLsbD_placed v t (by omega : s + k < 32), hout]

/-- A field of a word, put back at its place, is the word under the field's mask. -/
theorem placed_extract (w : Word) (s n : Nat) :
    placed (w.extractLsb' s n) s = w &&& placed (BitVec.allOnes n) s := by
  apply BitVec.eq_of_getLsbD_eq
  intro k hk
  rw [BitVec.getLsbD_and, getLsbD_placed _ s hk, getLsbD_placed _ s hk]
  by_cases hsk : s ≤ k
  · simp [hsk, Nat.add_sub_cancel' hsk, Bool.and_comm]
  · simp [hsk]

/-- A word that is 0 at a field's place has no bit in common with the field. -/
theorem and_placed {n s : Nat} {x : Word} (v : BitVec n) (h : x.extractLsb' s n = 0) : x &&& placed v s = 0 := by
  apply BitVec.eq_of_getLsbD_eq
  intro k hk
  rw [BitVec.getLsbD_and, getLsbD_placed v s hk]
  by_cases hin : s ≤ k ∧ k - s < n
  · have hbit : (x.extractLsb' s n).getLsbD (k - s) = x.getLsbD k := by
      simp [hin.2, Nat.add_sub_cancel' hin.1]
    rw [← hbit, h]
    simp
  · by_cases hsk : s ≤ k
    · simp [BitVec.getLsbD_of_ge v (k - s) (by omega)]
    · simp [hsk]

theorem placed_and {n s : Nat} {x : Word} (v : BitVec n) (h : x.extractLsb' s n = 0) : placed v s &&& x = 0 :=
  (BitVec.and_comm _ _).trans (and_placed v h)

/-- Putting a field into a place that is 0 adds its number, scaled. -/
theorem toNat_or_placed {n s : Nat} {x : Word} (v : BitVec n) (hs : s + n ≤ 32) (h : x.extractLsb' s n = 0) :
    (x ||| placed v s).toNat = x.toNat + v.toNat * 2 ^ s := by
  have hv : v.toNat * 2 ^ s < 2 ^ 32 :=
    calc v.toNat * 2 ^ s < 2 ^ n * 2 ^ s := by gcongr; exact v.isLt
      _ = 2 ^ (s + n) := by rw [← pow_add, Nat.add_comm]
      _ ≤ 2 ^ 32 := Nat.pow_le_pow_right (by omega) hs
  have hv' : v.toNat < 2 ^ 32 := v.isLt.trans_le (Nat.pow_le_pow_right (by omega) (by omega))
  rw [← BitVec.add_eq_or_of_and_eq_zero _ _ (and_placed v h), BitVec.toNat_add_of_and_eq_zero (and_placed v h),
    placed, BitVec.toNat_shiftLeft, BitVec.toNat_setWidth, Nat.shiftLeft_eq, Nat.mod_eq_of_lt hv', Nat.mod_eq_of_lt hv]

/-! ### What an entry's test says -/

theorem matchesWord_iff {row : TableRow} {w : Word} :
    row.matchesWord w = true ↔ w &&& row.mask = row.expected := beq_iff_eq

/-- One entry's test is the other's with one more field fixed, at a value `v` (R77). -/
structure RefinesAt (fine row : TableRow) (s : Nat) {n : Nat} (v : BitVec n) : Prop where
  inside : s + n ≤ 32
  mask_eq : fine.mask = row.mask ||| placed (BitVec.allOnes n) s
  expected_eq : fine.expected = row.expected ||| placed v s
  free : row.mask.extractLsb' s n = 0
  clear : row.expected.extractLsb' s n = 0

theorem RefinesAt.matchesWord_iff {fine row : TableRow} {s n : Nat} {v : BitVec n} (hr : RefinesAt fine row s v)
    (w : Word) : fine.matchesWord w = true ↔ row.matchesWord w = true ∧ w.extractLsb' s n = v := by
  obtain ⟨hs, hmask, hexp, hfree, hclear⟩ := hr
  rw [Sys2Proof.matchesWord_iff, Sys2Proof.matchesWord_iff, hmask, hexp, BitVec.and_or_distrib_left,
    ← placed_extract]
  have hwfree : (w &&& row.mask).extractLsb' s n = 0 := by simp [BitVec.extractLsb'_and, hfree]
  constructor
  · intro h
    have hfield : w.extractLsb' s n = v := by
      have h' := congrArg (BitVec.extractLsb' s n) h
      simpa only [BitVec.extractLsb'_or, extract_placed_self _ hs, hwfree, hclear, BitVec.ofNat_eq_ofNat,
        BitVec.zero_or] using h'
    rw [hfield, ← BitVec.add_eq_or_of_and_eq_zero _ _ (and_placed v hwfree),
      ← BitVec.add_eq_or_of_and_eq_zero _ _ (and_placed v hclear)] at h
    exact ⟨add_right_cancel h, hfield⟩
  · rintro ⟨hrow, hfield⟩
    rw [hrow, hfield]

/-- The expected bits of two entries that agree where both masks test: the first mask sees only the first entry's. -/
theorem or_and_mask_of_agree {e m e' m' : Word} (h : e &&& ~~~m = 0) (h' : e' &&& ~~~m' = 0)
    (hagree : (e ^^^ e') &&& (m &&& m') = 0) : (e ||| e') &&& m = e := by
  apply BitVec.eq_of_getLsbD_eq
  intro k hk
  have hbit := congrArg (BitVec.getLsbD · k) h
  have hbit' := congrArg (BitVec.getLsbD · k) h'
  have hbits := congrArg (BitVec.getLsbD · k) hagree
  simp only [BitVec.getLsbD_and, BitVec.getLsbD_or, BitVec.getLsbD_xor, BitVec.getLsbD_not] at hbit hbit' hbits ⊢
  grind

/-- `rowsOverlap` says what its name says: the word of both entries' expected bits is one that both take. -/
theorem rowsOverlap_iff {row other : TableRow} :
    rowsOverlap row other = true ↔ ∃ w : Word, row.matchesWord w = true ∧ other.matchesWord w = true := by
  have hbits : rowsOverlap row other = true ↔ row.expected &&& ~~~row.mask = 0 ∧
      other.expected &&& ~~~other.mask = 0 ∧
      (row.expected ^^^ other.expected) &&& (row.mask &&& other.mask) = 0 := by
    simp [rowsOverlap, and_assoc]
  rw [hbits]
  constructor
  · rintro ⟨hrow, hother, hagree⟩
    refine ⟨row.expected ||| other.expected, matchesWord_iff.2 (or_and_mask_of_agree hrow hother hagree),
      matchesWord_iff.2 ?_⟩
    rw [BitVec.or_comm]
    exact or_and_mask_of_agree hother hrow (by rwa [BitVec.xor_comm, BitVec.and_comm other.mask])
  · rintro ⟨w, hrow, hother⟩
    have hinside {r : TableRow} (h : r.matchesWord w = true) : r.expected &&& ~~~r.mask = 0 := by
      simp [← matchesWord_iff.1 h, BitVec.and_assoc]
    refine ⟨hinside hrow, hinside hother, ?_⟩
    by_contra hclash
    rw [← BitVec.and_assoc] at hclash
    simp [matchesWord_false_of_clash hrow hclash] at hother

/-! ### The first match -/

theorem lookupTag_cons (row : TableRow) (rest : List TableRow) (w : Word) :
    lookupTag (row :: rest) w = if row.matchesWord w then some row.tag else lookupTag rest w := rfl

/-- A match comes from a row of the table. -/
theorem exists_row_of_lookupTag {table : List TableRow} {w : Word} {tag : TableTag}
    (h : lookupTag table w = some tag) : ∃ row ∈ table, row.tag = tag := by
  induction table with
  | nil => cases h
  | cons row rest ih =>
    rw [lookupTag_cons] at h
    split at h
    · cases h; exact ⟨row, List.mem_cons_self, rfl⟩
    · obtain ⟨r, hr, htag⟩ := ih h
      exact ⟨r, List.mem_cons_of_mem _ hr, htag⟩

theorem lookupTag_eq_none_iff {table : List TableRow} {w : Word} :
    lookupTag table w = none ↔ ∀ row ∈ table, row.matchesWord w = false := by
  induction table with
  | nil => simp [lookupTag]
  | cons row rest ih => cases h : row.matchesWord w <;> simp [lookupTag_cons, h, ih]

/-- In a table whose tags differ, a row is the match exactly when it takes the word and no row before it does (R74). -/
theorem lookupTag_eq_some_iff {table : List TableRow} (hnodup : (table.map TableRow.tag).Nodup) {row : TableRow}
    (hmem : row ∈ table) {w : Word} :
    lookupTag table w = some row.tag ↔
      row.matchesWord w = true ∧ ∀ r ∈ table.takeWhile (· != row), r.matchesWord w = false := by
  induction table with
  | nil => cases hmem
  | cons r rest ih =>
    rw [List.map_cons, List.nodup_cons] at hnodup
    obtain ⟨hfresh, hnodup⟩ := hnodup
    rw [lookupTag_cons]
    by_cases hr : r = row
    · subst hr
      have hrest : lookupTag rest w ≠ some r.tag := fun h => by
        obtain ⟨r', hr', htag⟩ := exists_row_of_lookupTag h
        exact hfresh (List.mem_map.2 ⟨r', hr', htag⟩)
      cases r.matchesWord w <;> simp [hrest]
    · have hmem' : row ∈ rest := (List.mem_cons.1 hmem).resolve_left (Ne.symm hr)
      have htag : r.tag ≠ row.tag := fun h => hfresh (List.mem_map.2 ⟨row, hmem', h.symm⟩)
      cases h : r.matchesWord w <;> simp [hr, htag, h, ih hnodup hmem']

/-! ### The default table -/

theorem nodup_tags (lsb : BrRnLsb) : ((decodeTable lsb).map TableRow.tag).Nodup := by
  cases lsb <;> decide

theorem ownRow_mem (lsb : BrRnLsb) (i : Instr) : ownRow lsb i ∈ decodeTable lsb := by
  cases lsb <;> cases i <;> dsimp only [ownRow] <;> decide

/-- The instruction whose more specific row of the table takes some of an instruction's words: R77's three pairs. -/
def moreSpecific : Instr → Option Instr
  | .subsReg _ rn rm => some (.cmpReg rn rm)
  | .lslImm rd rn shift => some (.lsrImm rd rn shift)
  | .subsImm _ rn shift imm12 => some (.cmpImm rn shift imm12)
  | _ => none

/-- Of the rows before an instruction's own, only the more specific one of its pair has a word in common with it. -/
theorem overlapping_before_ownRow (lsb : BrRnLsb) (i : Instr) :
    ((decodeTable lsb).takeWhile (· != ownRow lsb i)).filter (rowsOverlap (ownRow lsb i)) =
      ((moreSpecific i).map (ownRow lsb)).toList := by
  cases lsb <;> cases i <;> dsimp only [ownRow, moreSpecific, Option.map, Option.toList] <;> decide

/-- A word's match is an instruction's row exactly when that row takes it and the more specific row of its pair, if it
has one, does not. -/
theorem lookupTag_decodeTable_iff {lsb : BrRnLsb} {i : Instr} {w : Word} :
    lookupTag (decodeTable lsb) w = some (ownRow lsb i).tag ↔
      (ownRow lsb i).matchesWord w = true ∧ ∀ j ∈ moreSpecific i, (ownRow lsb j).matchesWord w = false := by
  have hbefore (r : TableRow) :
      (r ∈ (decodeTable lsb).takeWhile (· != ownRow lsb i) ∧ rowsOverlap (ownRow lsb i) r = true) ↔
        ∃ j ∈ moreSpecific i, ownRow lsb j = r := by
    rw [← List.mem_filter, overlapping_before_ownRow, Option.mem_toList, Option.map_eq_some_iff]
    rfl
  rw [lookupTag_eq_some_iff (nodup_tags lsb) (ownRow_mem lsb i)]
  refine and_congr_right fun hown => ⟨fun h j hj => ?_, fun h r hr => ?_⟩
  · exact h _ ((hbefore _).2 ⟨j, hj, rfl⟩).1
  · by_contra hmatch
    rw [Bool.not_eq_false] at hmatch
    obtain ⟨j, hj, rfl⟩ := (hbefore r).1 ⟨hr, rowsOverlap_iff.2 ⟨w, hown, hmatch⟩⟩
    simp [h j hj] at hmatch

/-! ### The condition resolver -/

/-- The six lines of R87's table. -/
inductive ConditionBranch (cond : BitVec 4) (imm19 : BitVec 19) : Instr → Prop
  | eq (hcond : cond = 0x0) : ConditionBranch cond imm19 (.bEq imm19)
  | ne (hcond : cond = 0x1) : ConditionBranch cond imm19 (.bNe imm19)
  | ge (hcond : cond = 0xA) : ConditionBranch cond imm19 (.bGe imm19)
  | lt (hcond : cond = 0xB) : ConditionBranch cond imm19 (.bLt imm19)
  | gt (hcond : cond = 0xC) : ConditionBranch cond imm19 (.bGt imm19)
  | le (hcond : cond = 0xD) : ConditionBranch cond imm19 (.bLe imm19)

theorem resolveCondition_eq_ok_iff {cond : BitVec 4} {imm19 : BitVec 19} {i : Instr} :
    resolveCondition cond imm19 = .ok i ↔ ConditionBranch cond imm19 i := by
  constructor
  · intro h
    unfold resolveCondition at h
    split_ifs at h <;> cases h <;> constructor <;> assumption
  · rintro (h | h | h | h | h | h) <;> rw [h] <;> rfl

theorem conditionKind_of_resolveCondition_error {cond : BitVec 4} {imm19 : BitVec 19} {e : Unrecognized}
    (h : resolveCondition cond imm19 = .error e) : conditionKind cond = .unrecognized := by
  unfold resolveCondition at h
  unfold conditionKind
  split_ifs at h ⊢
  rfl

/-! ### What a word decodes to -/

/-- The extractor that makes an instruction is that of the instruction's own row. -/
theorem tag_ownRow_of_extractInstr {lsb : BrRnLsb} {tag : TableTag} {w : Word} {i : Instr}
    (h : extractInstr lsb tag w = .ok i) : (ownRow lsb i).tag = tag := by
  cases tag with
  | bCond => cases resolveCondition_eq_ok_iff.1 h <;> rfl
  | br => cases h; cases lsb <;> rfl
  | _ => cases h; rfl

theorem conditionBranch_of_extractInstr {lsb : BrRnLsb} {w : Word} {i : Instr}
    (h : extractInstr lsb .bCond w = .ok i) : ConditionBranch (fieldCond w) (fieldImm19 w) i :=
  resolveCondition_eq_ok_iff.1 h

theorem decodeWith_eq_ok_iff_lookupTag {lsb : BrRnLsb} {w : Word} {i : Instr} :
    decodeWith lsb w = .ok i ↔
      lookupTag (decodeTable lsb) w = some (ownRow lsb i).tag ∧ extractInstr lsb (ownRow lsb i).tag w = .ok i := by
  unfold decodeWith decodeIn
  cases htag : lookupTag (decodeTable lsb) w with
  | none => simp
  | some tag =>
    refine ⟨fun h => ?_, fun ⟨hown, h⟩ => ?_⟩
    · obtain rfl := tag_ownRow_of_extractInstr h
      exact ⟨rfl, h⟩
    · cases hown; exact h

/-- A word decodes to an instruction exactly when the instruction's own row takes it, the more specific row of its pair
does not, and its extractor reads the instruction's fields. -/
theorem decodeWith_eq_ok_iff {lsb : BrRnLsb} {w : Word} {i : Instr} :
    decodeWith lsb w = .ok i ↔ (ownRow lsb i).matchesWord w = true ∧
      (∀ j ∈ moreSpecific i, (ownRow lsb j).matchesWord w = false) ∧
      extractInstr lsb (ownRow lsb i).tag w = .ok i := by
  rw [decodeWith_eq_ok_iff_lookupTag, lookupTag_decodeTable_iff, and_assoc]

/-! R77's three pairs: the more specific row of each fixes one more field. -/

theorem cmpReg_refinesAt_subsReg (lsb : BrRnLsb) (rd rn rm : RegIdx) :
    RefinesAt (ownRow lsb (.cmpReg rn rm)) (ownRow lsb (.subsReg rd rn rm)) 0 zeroReg := by
  dsimp only [ownRow]
  refine ⟨?_, ?_, ?_, ?_, ?_⟩ <;> decide

theorem cmpImm_refinesAt_subsImm (lsb : BrRnLsb) (rd rn : RegIdx) (shift : BitVec 2) (imm12 : BitVec 12) :
    RefinesAt (ownRow lsb (.cmpImm rn shift imm12)) (ownRow lsb (.subsImm rd rn shift imm12)) 0 zeroReg := by
  dsimp only [ownRow]
  refine ⟨?_, ?_, ?_, ?_, ?_⟩ <;> decide

theorem lsrImm_refinesAt_lslImm (lsb : BrRnLsb) (rd rn : RegIdx) (shift : BitVec 6) :
    RefinesAt (ownRow lsb (.lsrImm rd rn shift)) (ownRow lsb (.lslImm rd rn shift)) 10 (63 : BitVec 6) := by
  dsimp only [ownRow]
  refine ⟨?_, ?_, ?_, ?_, ?_⟩ <;> decide

end Sys2Proof
end

section
/-! PROOFS. The statements of spec/30_encoding.md on the encoder: the round trip in both directions, and the words of
each layout. All of them see a word as its row's expected bits and its operands at their places. -/

namespace Sys2Proof

/-! ### The words the encoder writes -/

theorem matchesWord_encodeWith (lsb : BrRnLsb) (i : Instr) :
    (ownRow lsb i).matchesWord (encodeWith lsb i) = true := by
  cases i with
  | addImm => exact Laws.EncodeMatchesOwnRow.addImm _ _ _ _ lsb
  | addsImm => exact Laws.EncodeMatchesOwnRow.addsImm _ _ _ _ lsb
  | subImm => exact Laws.EncodeMatchesOwnRow.subImm _ _ _ _ lsb
  | subsImm => exact Laws.EncodeMatchesOwnRow.subsImm _ _ _ _ lsb
  | cmpImm => exact Laws.EncodeMatchesOwnRow.cmpImm _ _ _ lsb
  | addReg => exact Laws.EncodeMatchesOwnRow.addReg _ _ _ lsb
  | addsReg => exact Laws.EncodeMatchesOwnRow.addsReg _ _ _ lsb
  | subReg => exact Laws.EncodeMatchesOwnRow.subReg _ _ _ lsb
  | subsReg => exact Laws.EncodeMatchesOwnRow.subsReg _ _ _ lsb
  | cmpReg => exact Laws.EncodeMatchesOwnRow.cmpReg _ _ lsb
  | andsReg => exact Laws.EncodeMatchesOwnRow.andsReg _ _ _ lsb
  | eorReg => exact Laws.EncodeMatchesOwnRow.eorReg _ _ _ lsb
  | orrReg => exact Laws.EncodeMatchesOwnRow.orrReg _ _ _ lsb
  | mul => exact Laws.EncodeMatchesOwnRow.mul _ _ _ lsb
  | movz => exact Laws.EncodeMatchesOwnRow.movz _ _ lsb
  | lslImm => exact Laws.EncodeMatchesOwnRow.lslImm _ _ _ lsb
  | lsrImm => exact Laws.EncodeMatchesOwnRow.lsrImm _ _ _ lsb
  | stur => exact Laws.EncodeMatchesOwnRow.stur _ _ _ lsb
  | sturb => exact Laws.EncodeMatchesOwnRow.sturb _ _ _ lsb
  | sturh => exact Laws.EncodeMatchesOwnRow.sturh _ _ _ lsb
  | ldur => exact Laws.EncodeMatchesOwnRow.ldur _ _ _ lsb
  | ldurb => exact Laws.EncodeMatchesOwnRow.ldurb _ _ _ lsb
  | ldurh => exact Laws.EncodeMatchesOwnRow.ldurh _ _ _ lsb
  | b => exact Laws.EncodeMatchesOwnRow.b _ lsb
  | br => exact Laws.EncodeMatchesOwnRow.br _ lsb
  | cbz => exact Laws.EncodeMatchesOwnRow.cbz _ _ lsb
  | cbnz => exact Laws.EncodeMatchesOwnRow.cbnz _ _ lsb
  | bEq => exact Laws.EncodeMatchesOwnRow.bEq _ lsb
  | bNe => exact Laws.EncodeMatchesOwnRow.bNe _ lsb
  | bGe => exact Laws.EncodeMatchesOwnRow.bGe _ lsb
  | bLt => exact Laws.EncodeMatchesOwnRow.bLt _ lsb
  | bGt => exact Laws.EncodeMatchesOwnRow.bGt _ lsb
  | bLe => exact Laws.EncodeMatchesOwnRow.bLe _ lsb
  | hlt => exact Laws.EncodeMatchesOwnRow.hlt lsb

/-- An instruction's operands at their places: what the encoder adds to the fixed bits of the instruction's row. -/
def operandBits (lsb : BrRnLsb) : Instr → Word
  | .addImm rd rn shift imm12 | .addsImm rd rn shift imm12 | .subImm rd rn shift imm12 | .subsImm rd rn shift imm12 =>
    placed shift 22 ||| placed imm12 10 ||| placed rn 5 ||| placed rd 0
  | .cmpImm rn shift imm12 => placed shift 22 ||| placed imm12 10 ||| placed rn 5
  | .addReg rd rn rm | .addsReg rd rn rm | .subReg rd rn rm | .subsReg rd rn rm | .andsReg rd rn rm
  | .eorReg rd rn rm | .orrReg rd rn rm | .mul rd rn rm => placed rm 16 ||| placed rn 5 ||| placed rd 0
  | .cmpReg rn rm => placed rm 16 ||| placed rn 5
  | .movz rd imm16 => placed imm16 5 ||| placed rd 0
  | .lslImm rd rn shift =>
    placed (leftShiftCount shift) 16 ||| placed (lslSpareBits shift) 10 ||| placed rn 5 ||| placed rd 0
  | .lsrImm rd rn shift => placed shift 16 ||| placed rn 5 ||| placed rd 0
  | .stur rd rn imm9 | .sturb rd rn imm9 | .sturh rd rn imm9 | .ldur rd rn imm9 | .ldurb rd rn imm9
  | .ldurh rd rn imm9 => placed imm9 12 ||| placed rn 5 ||| placed rd 0
  | .b imm26 => placed imm26 0
  | .br rn => match lsb with
    | .bit0 => placed rn 0
    | .bit5 => placed rn 5
  | .cbz rt imm19 | .cbnz rt imm19 => placed imm19 5 ||| placed rt 0
  | .bEq imm19 => placed imm19 5 ||| placed (0x0 : BitVec 4) 0
  | .bNe imm19 => placed imm19 5 ||| placed (0x1 : BitVec 4) 0
  | .bGe imm19 => placed imm19 5 ||| placed (0xA : BitVec 4) 0
  | .bLt imm19 => placed imm19 5 ||| placed (0xB : BitVec 4) 0
  | .bGt imm19 => placed imm19 5 ||| placed (0xC : BitVec 4) 0
  | .bLe imm19 => placed imm19 5 ||| placed (0xD : BitVec 4) 0
  | .hlt => 0

/-- The encoding column of R94, layout by layout: the expected bits of the instruction's row and its operands. -/
theorem encodeWith_eq (lsb : BrRnLsb) (i : Instr) :
    encodeWith lsb i = (ownRow lsb i).expected ||| operandBits lsb i := by
  cases i with
  | br => cases lsb <;> simp [encodeWith, ownRow, operandBits, brRow, formatBr, placed]
  | _ =>
    simp [encodeWith, ownRow, cmpRegRow, operandBits, formatI, formatR, formatM, formatS, formatD, formatB26, formatCb,
      formatBCond, formatH, placed, BitVec.or_assoc]

/-- R83 and R94 turn a rotate field into a count and back by one formula. -/
theorem leftShiftCount_leftShiftCount (x : BitVec 6) : leftShiftCount (leftShiftCount x) = x := by
  apply BitVec.eq_of_toNat_eq
  have hx := x.isLt
  simp only [leftShiftCount, BitVec.toNat_ofNat]
  omega

/-- The encoder never gives a left shift the bits[15:10] that the right shift's row fixes (log entry 9). -/
theorem lslSpareBits_ne (shift : BitVec 6) : lslSpareBits shift ≠ 63 := by
  unfold lslSpareBits
  split
  · decide
  · bv_omega

/-- The extractor of an instruction's row reads back the fields that the encoder wrote. -/
theorem extractInstr_encodeWith (lsb : BrRnLsb) (i : Instr) :
    extractInstr lsb (ownRow lsb i).tag (encodeWith lsb i) = .ok i := by
  rw [encodeWith_eq]
  cases i with
  | addImm | addsImm | subImm | subsImm | cmpImm =>
    simp [ownRow, extractInstr, operandBits, fieldRd, fieldRn, fieldShiftCode, fieldImm12, BitVec.extractLsb'_or]
  | addReg | addsReg | subReg | subsReg | cmpReg | andsReg | eorReg | orrReg | mul =>
    simp [ownRow, cmpRegRow, extractInstr, operandBits, fieldRd, fieldRn, fieldRm, BitVec.extractLsb'_or]
  | movz => simp [ownRow, extractInstr, operandBits, fieldRd, fieldImm16, BitVec.extractLsb'_or]
  | lslImm | lsrImm =>
    simp [ownRow, extractInstr, operandBits, fieldRd, fieldRn, fieldRotate, leftShiftCount_leftShiftCount,
      BitVec.extractLsb'_or]
  | stur | sturb | sturh | ldur | ldurb | ldurh =>
    simp [ownRow, extractInstr, operandBits, fieldRd, fieldRn, fieldImm9, BitVec.extractLsb'_or]
  | b => simp [ownRow, extractInstr, operandBits, fieldImm26, BitVec.extractLsb'_or]
  | br => cases lsb <;> simp [ownRow, brRow, extractInstr, operandBits, fieldBrRn, BitVec.extractLsb'_or]
  | cbz | cbnz => simp [ownRow, extractInstr, operandBits, fieldRd, fieldImm19, BitVec.extractLsb'_or]
  | bEq | bNe | bGe | bLt | bGt | bLe =>
    simp [ownRow, extractInstr, operandBits, fieldCond, fieldImm19, resolveCondition, BitVec.extractLsb'_or]
  | hlt => rfl

/-! ### The statements on the round trip -/

theorem subsDestination_iff {rd : RegIdx} : subsDestination rd = true ↔ rd ≠ zeroReg := bne_iff_ne

/-- Of the words of SUBS_REG's row, CMP_REG's row takes those whose destination is register 31 (R77). -/
theorem cmpReg_matchesWord_iff {lsb : BrRnLsb} {w : Word} {rd rn rm : RegIdx}
    (hown : (ownRow lsb (.subsReg rd rn rm)).matchesWord w = true)
    (hext : extractInstr lsb .subsReg w = .ok (.subsReg rd rn rm)) :
    (ownRow lsb (.cmpReg rn rm)).matchesWord w = true ↔ rd = zeroReg := by
  obtain ⟨hrd, _⟩ := Instr.subsReg.inj (Except.ok.inj hext)
  rw [(cmpReg_refinesAt_subsReg lsb rd rn rm).matchesWord_iff, and_iff_right hown, ← hrd, fieldRd]

/-- Of the words of SUBS_IMM's row, CMP_IMM's row takes those whose destination is register 31 (R77). -/
theorem cmpImm_matchesWord_iff {lsb : BrRnLsb} {w : Word} {rd rn : RegIdx} {shift : BitVec 2} {imm12 : BitVec 12}
    (hown : (ownRow lsb (.subsImm rd rn shift imm12)).matchesWord w = true)
    (hext : extractInstr lsb .subsImm w = .ok (.subsImm rd rn shift imm12)) :
    (ownRow lsb (.cmpImm rn shift imm12)).matchesWord w = true ↔ rd = zeroReg := by
  obtain ⟨hrd, _⟩ := Instr.subsImm.inj (Except.ok.inj hext)
  rw [(cmpImm_refinesAt_subsImm lsb rd rn shift imm12).matchesWord_iff, and_iff_right hown, ← hrd, fieldRd]

/-- LSR_IMM's row does not take the encoder's word for a left shift. -/
theorem lsrImm_matchesWord_encodeWith_lslImm (lsb : BrRnLsb) (rd rn : RegIdx) (shift : BitVec 6) :
    (ownRow lsb (.lsrImm rd rn shift)).matchesWord (encodeWith lsb (.lslImm rd rn shift)) = false := by
  rw [← Bool.not_eq_true, (lsrImm_refinesAt_lslImm lsb rd rn shift).matchesWord_iff]
  rintro ⟨_, h⟩
  refine lslSpareBits_ne shift ?_
  simpa [encodeWith_eq, ownRow, operandBits, BitVec.extractLsb'_or] using h

/-- Settles O2: the word is one that the instruction's own row takes, the more specific row of its pair does not, and
the extractor reads back the fields. -/
theorem decodeOfEncode : Obligations.DecodeOfEncode := by
  intro lsb i hwf
  have hown := matchesWord_encodeWith lsb i
  have hext := extractInstr_encodeWith lsb i
  refine decodeWith_eq_ok_iff.2 ⟨hown, fun j hj => ?_, hext⟩
  cases i with
  | subsReg rd rn rm =>
    cases hj
    rw [← Bool.not_eq_true, cmpReg_matchesWord_iff hown hext]
    exact subsDestination_iff.1 hwf
  | subsImm rd rn shift imm12 =>
    cases hj
    rw [← Bool.not_eq_true, cmpImm_matchesWord_iff hown hext]
    exact subsDestination_iff.1 hwf
  | lslImm rd rn shift =>
    cases hj
    exact lsrImm_matchesWord_encodeWith_lslImm lsb rd rn shift
  | _ => cases hj

/-- Settles O3: a SUBS word whose destination is register 31 is one that the compare row before it takes. -/
theorem decodedInstructionsAreWellFormed : Obligations.DecodedInstructionsAreWellFormed := by
  intro lsb w i h
  obtain ⟨hown, hspecific, hext⟩ := decodeWith_eq_ok_iff.1 h
  cases i with
  | subsReg rd rn rm =>
    refine subsDestination_iff.2 fun hrd => ?_
    simpa [(cmpReg_matchesWord_iff hown hext).2 hrd] using hspecific _ rfl
  | subsImm rd rn shift imm12 =>
    refine subsDestination_iff.2 fun hrd => ?_
    simpa [(cmpImm_matchesWord_iff hown hext).2 hrd] using hspecific _ rfl
  | _ => rfl

/-! ### Encoding a decoded word -/

theorem and_and_congr {a b n : Word} (w : Word) (h : a &&& n = b &&& n) : w &&& a &&& n = w &&& b &&& n := by
  rw [BitVec.and_assoc, h, BitVec.and_assoc]

/-- The operands read from a word are the word's own bits, outside its row's mask and the ignored bits. -/
theorem operandBits_of_extractInstr {w : Word} {i : Instr}
    (h : extractInstr .bit0 (ownRow .bit0 i).tag w = .ok i) :
    operandBits .bit0 i &&& ~~~ignoredBits i = w &&& ~~~(ownRow .bit0 i).mask &&& ~~~ignoredBits i := by
  cases i with
  | lslImm =>
    cases h
    have hspare (v : BitVec 6) : placed v 10 &&& ~~~0x0000FC00 = 0 := placed_and v (by decide)
    simp only [operandBits, ignoredBits, BitVec.and_or_distrib_right, hspare, leftShiftCount_leftShiftCount]
    simp only [fieldRotate, fieldRn, fieldRd, placed_extract, BitVec.ofNat_eq_ofNat, BitVec.or_zero,
      ← BitVec.and_or_distrib_right, ← BitVec.and_or_distrib_left]
    exact and_and_congr w (by dsimp only [ownRow]; decide)
  | bEq | bNe | bGe | bLt | bGt | bLe =>
    obtain hcond | hcond | hcond | hcond | hcond | hcond := conditionBranch_of_extractInstr h
    rw [operandBits, ← hcond]
    simp only [fieldImm19, fieldCond, placed_extract, ← BitVec.and_or_distrib_left]
    exact and_and_congr w (by dsimp only [ownRow, ignoredBits]; decide)
  | hlt => simp [operandBits, ownRow, ignoredBits, BitVec.and_assoc]
  | _ =>
    cases h
    simp only [operandBits, fieldRd, fieldRn, fieldRm, fieldShiftCode, fieldImm12, fieldImm16, fieldRotate, fieldImm9,
      fieldImm19, fieldImm26, fieldBrRn, placed_extract, ← BitVec.and_or_distrib_left]
    exact and_and_congr w (by dsimp only [ownRow, ignoredBits]; decide)

/-- A word and the encoder's word for its instruction agree in the row's mask, where both have the row's expected
bits, and in the operands. -/
theorem encode_and_not_ignoredBits {w : Word} {i : Instr} (h : decode w = .ok i) :
    encode i &&& ~~~ignoredBits i = w &&& ~~~ignoredBits i := by
  obtain ⟨hown, _, hext⟩ := decodeWith_eq_ok_iff.1 h
  have hfixed : w &&& (ownRow .bit0 i).mask = (ownRow .bit0 i).expected := matchesWord_iff.1 hown
  calc encode i &&& ~~~ignoredBits i
      = w &&& (ownRow .bit0 i).mask &&& ~~~ignoredBits i |||
          w &&& ~~~(ownRow .bit0 i).mask &&& ~~~ignoredBits i := by
        rw [hfixed, ← operandBits_of_extractInstr hext, ← BitVec.and_or_distrib_right, ← encodeWith_eq]
        rfl
    _ = w &&& ~~~ignoredBits i := by
        rw [← BitVec.and_or_distrib_right, ← BitVec.and_or_distrib_left, BitVec.or_not_self, BitVec.and_allOnes]

/-- Settles O4: two words that agree outside the ignored bits differ in no bit there. -/
theorem encodeRestoresEveryReadBit : Obligations.EncodeRestoresEveryReadBit := by
  intro w i h
  apply BitVec.eq_of_getLsbD_eq
  intro k _
  have hbit := congrArg (BitVec.getLsbD · k) (encode_and_not_ignoredBits h)
  simp only [BitVec.getLsbD_and] at hbit
  rw [BitVec.getLsbD_and, BitVec.getLsbD_xor, Bool.and_xor_distrib_right, hbit, Bool.xor_self, BitVec.ofNat_eq_ofNat,
    BitVec.getLsbD_zero]

/-- Settles O9: the fields of a word are disjoint, so each adds its number at its place. -/
theorem encodedWordsHaveTheirLayout : Obligations.EncodedWordsHaveTheirLayout := by
  intro rd rn rm shift imm12 imm16 count imm9 imm19 imm26
  refine ⟨?_, ?_, ?_, ?_, ?_, ?_, ?_, ?_, ?_, rfl⟩ <;>
  · simp (disch := simp [BitVec.extractLsb'_or]) only [encode, encodeWith_eq, ownRow, brRnLsb, brRow, operandBits,
      ← BitVec.or_assoc, toNat_or_placed]
    bv_omega

end Sys2Proof
end

section
/-! PROOFS. The statements of spec/30_encoding.md on the decoder's table and record: the pairs of rows that overlap, the
condition resolver, the two forms of the decoder's answer, and the 34 rows of spec/opcode_table.json. -/

namespace Sys2Proof

/-! ### The rows of the table two by two -/

/-- The 406 pairs of rows, with each row's number from 1 on (R77). -/
theorem rowsOverlap_decodeTable_iff : ∀ j k : Fin 29, j < k →
    (rowsOverlap (decodeTable .bit0)[j] (decodeTable .bit0)[k] = true ↔
      (j.val + 1, k.val + 1) = (1, 7) ∨ (j.val + 1, k.val + 1) = (12, 20) ∨ (j.val + 1, k.val + 1) = (13, 26)) := by
  decide

/-- Settles O6: two rows overlap exactly when some word matches both, and that is decided pair by pair. -/
theorem exactlyThreePairsOfRowsOverlap : Obligations.ExactlyThreePairsOfRowsOverlap := by
  refine ⟨rfl, fun j k early late hjk hj hk => ?_⟩
  obtain ⟨hj', rfl⟩ := List.getElem?_eq_some_iff.1 hj
  obtain ⟨hk', rfl⟩ := List.getElem?_eq_some_iff.1 hk
  rw [← rowsOverlap_iff]
  exact rowsOverlap_decodeTable_iff ⟨j, hj'⟩ ⟨k, hk'⟩ hjk

/-! ### The conditional-branch words -/

theorem conditionalWord_eq (imm19 : BitVec 19) (cond : BitVec 4) :
    Machine.conditionalWord imm19 cond = 0x54000000 ||| placed imm19 5 ||| placed cond 0 := by
  simp [Machine.conditionalWord, placed]

/-- Whatever its condition code, the word goes to the condition resolver (R87). -/
theorem lookupTag_conditionalWord (imm19 : BitVec 19) (cond : BitVec 4) :
    lookupTag (decodeTable brRnLsb) (Machine.conditionalWord imm19 cond) = some .bCond := by
  refine (lookupTag_decodeTable_iff (i := .bEq imm19)).2 ⟨matchesWord_iff.2 ?_, fun j hj => by cases hj⟩
  have himm : placed imm19 5 &&& 0xFF000010 = 0 := placed_and _ (by decide)
  have hcond : placed cond 0 &&& 0xFF000010 = 0 := placed_and _ (by decide)
  simp only [ownRow, conditionalWord_eq, BitVec.and_or_distrib_right, himm, hcond]
  decide

theorem decode_conditionalWord (imm19 : BitVec 19) (cond : BitVec 4) :
    decode (Machine.conditionalWord imm19 cond) = resolveCondition cond imm19 := by
  have himm : fieldImm19 (Machine.conditionalWord imm19 cond) = imm19 := by
    simp [fieldImm19, conditionalWord_eq, BitVec.extractLsb'_or]
  have hcond : fieldCond (Machine.conditionalWord imm19 cond) = cond := by
    simp [fieldCond, conditionalWord_eq, BitVec.extractLsb'_or]
  rw [decode, decodeWith, decodeIn, lookupTag_conditionalWord]
  simp only [extractInstr, himm, hcond]

/-! ### The record of a decoded word -/

/-- The record's extractor makes the instruction's record; a compare's `rd` is 31 in its words (R80, R81). -/
theorem extractRecord_of_extractInstr {lsb : BrRnLsb} {w : Word} {i : Instr}
    (hown : (ownRow lsb i).matchesWord w = true) (hext : extractInstr lsb (ownRow lsb i).tag w = .ok i) :
    extractRecord lsb (ownRow lsb i).tag w = i.record := by
  cases i with
  | cmpReg rn rm =>
    obtain ⟨_, hrd⟩ := ((cmpReg_refinesAt_subsReg lsb 0 rn rm).matchesWord_iff w).1 hown
    cases hext
    simp only [ownRow, cmpRegRow, extractRecord, extractRegister, fieldRd, hrd]
    rfl
  | cmpImm rn shift imm12 =>
    obtain ⟨_, hrd⟩ := ((cmpImm_refinesAt_subsImm lsb 0 rn shift imm12).matchesWord_iff w).1 hown
    cases hext
    simp only [ownRow, extractRecord, extractArithImm, fieldRd, hrd]
    rfl
  | bEq | bNe | bGe | bLt | bGt | bLe =>
    obtain hcond | hcond | hcond | hcond | hcond | hcond := conditionBranch_of_extractInstr hext
    simp only [ownRow, extractRecord, extractConditional, hcond]
    rfl
  | br => cases lsb <;> (cases hext; rfl)
  | _ => cases hext; rfl

theorem decodeRecord_of_decode_ok {w : Word} {i : Instr} (h : decode w = .ok i) : decodeRecord w = i.record := by
  obtain ⟨hown, _, hext⟩ := decodeWith_eq_ok_iff.1 h
  rw [decodeRecord, decodeRecordIn, (decodeWith_eq_ok_iff_lookupTag.1 h).1]
  exact extractRecord_of_extractInstr hown hext

/-- No entry but B.cond's rejects a word that it takes. -/
theorem extractRecord_of_extractInstr_error {lsb : BrRnLsb} {tag : TableTag} {w : Word} {e : Unrecognized}
    (h : extractInstr lsb tag w = .error e) : extractRecord lsb tag w = unrecognizedRecord := by
  cases tag with
  | bCond => exact if_pos (conditionKind_of_resolveCondition_error h)
  | _ => cases h

theorem decodeRecord_of_decode_error {w : Word} {e : Unrecognized} (h : decode w = .error e) :
    decodeRecord w = unrecognizedRecord := by
  rw [decode, decodeWith, decodeIn] at h
  rw [decodeRecord, decodeRecordIn]
  cases htag : lookupTag (decodeTable brRnLsb) w with
  | none => rfl
  | some tag => rw [htag] at h; exact extractRecord_of_extractInstr_error h

theorem kind_ne_unrecognized (i : Instr) : i.kind ≠ .unrecognized := by
  cases i <;> nofun

/-- Settles O7: the two forms agree extractor by extractor, and no instruction has the kind UNRECOGNIZED. -/
theorem recordIsThatOfTheDecodedInstruction : Obligations.RecordIsThatOfTheDecodedInstruction := by
  refine fun w => ⟨fun i h => ⟨decodeRecord_of_decode_ok h, Machine.kind_decodeRecord h⟩,
    fun e => decodeRecord_of_decode_error, fun hkind => ?_⟩
  cases h : decode w with
  | error e => exact ⟨e, rfl⟩
  | ok i => exact absurd ((Machine.kind_decodeRecord h).symm.trans hkind) (kind_ne_unrecognized i)

/-- Settles O8: the word goes to the resolver with its own condition code and offset. -/
theorem conditionCodesResolve : Obligations.ConditionCodesResolve := by
  intro imm19 cond
  simp only [decode_conditionalWord, resolveCondition_eq_ok_iff]
  refine ⟨.eq, .ne, .ge, .lt, .gt, .le, fun hcond => ?_⟩
  have herr : resolveCondition cond imm19 = .error .unsupportedCondition := by
    simp only [List.mem_cons, List.not_mem_nil, or_false, not_or] at hcond
    simp [resolveCondition, hcond]
  exact ⟨herr, decodeRecord_of_decode_error ((decode_conditionalWord imm19 cond).trans herr)⟩

/-! ### The 34 rows of spec/opcode_table.json -/

/-- The six codes of R87. -/
def supportedConditions : List (BitVec 4) := [0x0, 0x1, 0xA, 0xB, 0xC, 0xD]

theorem conditionKind_eq_unrecognized_iff (cond : BitVec 4) :
    conditionKind cond = .unrecognized ↔ cond ∉ supportedConditions := by
  revert cond; decide

/-- The row of spec/opcode_table.json that a row of R76 becomes with one condition code fixed. -/
def conditionRow (row : TableRow) (cond : BitVec 4) : OpcodeRow :=
  ⟨row.mask ||| placed (BitVec.allOnes 4) 0, row.expected ||| placed cond 0, conditionKind cond⟩

/-- The rows of spec/opcode_table.json that a row of R76 stands for: one for each condition code of the B.cond row, and
otherwise the row itself, with the kind that its extractor gives every word. -/
def opcodeRowsOf (row : TableRow) : List OpcodeRow :=
  if row.tag = .bCond then supportedConditions.map (conditionRow row)
  else [⟨row.mask, row.expected, (extractRecord .bit0 row.tag 0).kind⟩]

theorem opcodeRows_eq : opcodeRows = (decodeTable .bit0).flatMap opcodeRowsOf := by decide

theorem opcodeKind_cons (row : OpcodeRow) (rest : List OpcodeRow) (w : Word) :
    opcodeKind (row :: rest) w = if (w &&& row.mask) == row.expected then row.kind else opcodeKind rest w := rfl

theorem decodeRecordIn_cons (row : TableRow) (rest : List TableRow) (lsb : BrRnLsb) (w : Word) :
    decodeRecordIn (row :: rest) lsb w =
      if row.matchesWord w then extractRecord lsb row.tag w else decodeRecordIn rest lsb w := by
  unfold decodeRecordIn
  rw [lookupTag_cons]
  split_ifs <;> rfl

theorem decodeRecordIn_of_no_match {table : List TableRow} {w : Word} (lsb : BrRnLsb)
    (h : ∀ row ∈ table, row.matchesWord w = false) : decodeRecordIn table lsb w = unrecognizedRecord := by
  rw [decodeRecordIn, lookupTag_eq_none_iff.2 h]

/-- The condition code is no part of the row's own test. -/
def leavesConditionFree (row : TableRow) : Prop :=
  row.mask.extractLsb' 0 4 = 0 ∧ row.expected.extractLsb' 0 4 = 0

theorem conditionRow_matches_iff {row : TableRow} (hfree : leavesConditionFree row) (cond : BitVec 4) (w : Word) :
    ((w &&& (conditionRow row cond).mask) == (conditionRow row cond).expected) = true ↔
      row.matchesWord w = true ∧ fieldCond w = cond :=
  RefinesAt.matchesWord_iff (fine := ⟨(conditionRow row cond).mask, (conditionRow row cond).expected, row.tag⟩)
    ⟨by decide, rfl, rfl, hfree.1, hfree.2⟩ w

/-- The rows of a list of condition codes take the words of their row whose code is in the list. -/
theorem opcodeKind_conditionRows_append {row : TableRow} (hfree : leavesConditionFree row)
    (conds : List (BitVec 4)) (rest : List OpcodeRow) (w : Word) :
    opcodeKind (conds.map (conditionRow row) ++ rest) w =
      if row.matchesWord w = true ∧ fieldCond w ∈ conds then conditionKind (fieldCond w)
      else opcodeKind rest w := by
  induction conds with
  | nil => simp
  | cons cond conds ih =>
    rw [List.map_cons, List.cons_append, opcodeKind_cons, ih]
    simp only [conditionRow_matches_iff hfree, List.mem_cons]
    by_cases hcond : fieldCond w = cond
    · cases row.matchesWord w <;> simp [hcond, conditionRow]
    · simp [hcond]

theorem kind_extractConditional (w : Word) : (extractConditional w).kind = conditionKind (fieldCond w) := by
  unfold extractConditional
  split_ifs with h
  · exact h.symm
  · rfl

theorem kind_extractRecord_eq {tag : TableTag} (h : tag ≠ .bCond) (lsb : BrRnLsb) (w : Word) :
    (extractRecord .bit0 tag 0).kind = (extractRecord lsb tag w).kind := by
  cases tag with
  | bCond => exact absurd rfl h
  | _ => rfl

/-- A table and its expansion into the rows of spec/opcode_table.json give a word the same kind, when no row after the
B.cond row takes a word that the condition resolver rejects. -/
theorem opcodeKind_flatMap {table : List TableRow}
    (hfree : ∀ row ∈ table, row.tag = .bCond → leavesConditionFree row)
    (hlast : table.Pairwise fun row later => row.tag = .bCond → rowsOverlap row later = false)
    (lsb : BrRnLsb) (w : Word) :
    opcodeKind (table.flatMap opcodeRowsOf) w = (decodeRecordIn table lsb w).kind := by
  induction table with
  | nil => rfl
  | cons row rest ih =>
    obtain ⟨hlater, hlast⟩ := List.pairwise_cons.1 hlast
    have ih := ih (fun r hr => hfree r (List.mem_cons_of_mem _ hr)) hlast
    rw [List.flatMap_cons, decodeRecordIn_cons, opcodeRowsOf]
    by_cases htag : row.tag = .bCond
    · rw [if_pos htag, opcodeKind_conditionRows_append (hfree row List.mem_cons_self htag), ih, htag]
      cases hrow : row.matchesWord w with
      | false => simp
      | true =>
        have hrest : ∀ later ∈ rest, later.matchesWord w = false := fun later hmem => by
          by_contra hmatch
          rw [Bool.not_eq_false] at hmatch
          simpa [rowsOverlap_iff.2 ⟨w, hrow, hmatch⟩] using hlater later hmem htag
        rw [if_pos rfl, decodeRecordIn_of_no_match lsb hrest, extractRecord, kind_extractConditional]
        by_cases hcond : fieldCond w ∈ supportedConditions
        · rw [if_pos ⟨rfl, hcond⟩]
        · rw [if_neg fun h => hcond h.2, (conditionKind_eq_unrecognized_iff _).2 hcond]
          rfl
    · rw [if_neg htag, List.singleton_append, opcodeKind_cons, ih, kind_extractRecord_eq htag lsb w,
        TableRow.matchesWord]
      split_ifs <;> rfl

/-- Settles O5: the 34 rows are the 29 with the B.cond row expanded. -/
theorem decoderAgreesWithOpcodeTable : Obligations.DecoderAgreesWithOpcodeTable := by
  intro w
  rw [opcodeRows_eq]
  refine (opcodeKind_flatMap ?_ (by decide) _ w).symm
  unfold leavesConditionFree
  decide

end Sys2Proof
end

section
/-! PROOFS. The statements of spec/30_encoding.md on the six extractors. The record of a word is a function of its own
kind and the word; each statement reads that function's fields as numbers. -/

namespace Sys2Proof

/-! ### The fields of a record by its kind -/

/-- R80 to R86: what the extractor of each kind makes of a word. -/
def extractKind (kind : Kind) (w : Word) : DecodedInstruction :=
  match kind with
  | .addImm | .addsImm | .subImm | .subsImm | .cmpImm => extractArithImm kind w
  | .addReg | .addsReg | .subReg | .subsReg | .cmpReg | .andsReg | .eorReg | .orrReg | .mul => extractRegister kind w
  | .movz => extractMoveWide kind w
  | .lslImm => extractShift kind (leftShiftCount (fieldRotate w)) w
  | .lsrImm => extractShift kind (fieldRotate w) w
  | .stur | .sturb | .sturh | .ldur | .ldurb | .ldurh => extractMemory kind w
  | .b => { kind := kind, immediate := scaledOffset26 (fieldImm26 w) }
  | .br => { kind := kind, rn := fieldRd w }
  | .cbz | .cbnz => extractCompareBranch kind w
  | .bEq | .bNe | .bGe | .bLt | .bGt | .bLe => { kind := kind, immediate := scaledOffset19 (fieldImm19 w) }
  | .hlt | .unrecognized => { kind := kind }

theorem extractConditional_eq (w : Word) :
    extractConditional w = extractKind (extractConditional w).kind w := by
  cases h : resolveCondition (fieldCond w) (fieldImm19 w) with
  | error =>
    have herr : extractConditional w = unrecognizedRecord := if_pos (conditionKind_of_resolveCondition_error h)
    rw [herr]; rfl
  | ok i =>
    obtain hcond | hcond | hcond | hcond | hcond | hcond := resolveCondition_eq_ok_iff.1 h <;>
    · rw [kind_extractConditional, extractConditional, hcond]
      rfl

/-- The record of a word is what the extractor of its own kind makes of the word. -/
theorem decodeRecord_eq_extractKind (w : Word) : decodeRecord w = extractKind (decodeRecord w).kind w := by
  rw [decodeRecord, decodeRecordIn]
  cases lookupTag (decodeTable brRnLsb) w with
  | none => rfl
  | some tag =>
    cases tag with
    | bCond => exact extractConditional_eq w
    | _ => rfl

/-! The fields of a word as numbers. -/

theorem toNat_extract (w : Word) (s n : Nat) : (w.extractLsb' s n).toNat = w.toNat / 2 ^ s % 2 ^ n := by
  rw [BitVec.extractLsb'_toNat, Nat.shiftRight_eq_div_pow]

theorem toNat_fieldRd (w : Word) : (fieldRd w).toNat = w.toNat % 32 := BitVec.extractLsb'_toNat ..
theorem toNat_fieldRn (w : Word) : (fieldRn w).toNat = w.toNat / 2 ^ 5 % 32 := toNat_extract w 5 5
theorem toNat_fieldRm (w : Word) : (fieldRm w).toNat = w.toNat / 2 ^ 16 % 32 := toNat_extract w 16 5
theorem toNat_fieldShiftCode (w : Word) : (fieldShiftCode w).toNat = w.toNat / 2 ^ 22 % 4 := toNat_extract w 22 2
theorem toNat_fieldImm12 (w : Word) : (fieldImm12 w).toNat = w.toNat / 2 ^ 10 % 4096 := toNat_extract w 10 12
theorem toNat_fieldImm16 (w : Word) : (fieldImm16 w).toNat = w.toNat / 2 ^ 5 % 2 ^ 16 := toNat_extract w 5 16
theorem toNat_fieldRotate (w : Word) : (fieldRotate w).toNat = w.toNat / 2 ^ 16 % 64 := toNat_extract w 16 6
theorem toNat_fieldImm9 (w : Word) : (fieldImm9 w).toNat = w.toNat / 2 ^ 12 % 512 := toNat_extract w 12 9
theorem toNat_fieldImm19 (w : Word) : (fieldImm19 w).toNat = w.toNat / 2 ^ 5 % 2 ^ 19 := toNat_extract w 5 19
theorem toNat_fieldImm26 (w : Word) : (fieldImm26 w).toNat = w.toNat % 2 ^ 26 := BitVec.extractLsb'_toNat ..

/-! The immediates as numbers. -/

theorem toNat_arithImmediate (shift : BitVec 2) (imm12 : BitVec 12) :
    (arithImmediate shift imm12).toNat = if shift.toNat = 1 then imm12.toNat * 2 ^ 12 else imm12.toNat := by
  have himm := imm12.isLt
  have hshift : shift = 1 ↔ shift.toNat = 1 := BitVec.toNat_inj.symm
  unfold arithImmediate
  simp only [hshift]
  split_ifs
  · rw [BitVec.toNat_shiftLeft, BitVec.toNat_setWidth, Nat.shiftLeft_eq]
    omega
  · rw [BitVec.toNat_setWidth]
    omega

theorem toNat_movzImmediate (imm16 : BitVec 16) : (movzImmediate imm16).toNat = imm16.toNat := by
  rw [movzImmediate, BitVec.toNat_setWidth]
  omega

theorem toNat_leftShiftCount (rotate : BitVec 6) : (leftShiftCount rotate).toNat = (64 - rotate.toNat) % 64 := by
  rw [leftShiftCount, BitVec.toNat_ofNat]
  omega

theorem toInt_memOffset (imm9 : BitVec 9) :
    (memOffset imm9).toInt = if imm9.toNat < 256 then (imm9.toNat : Int) else imm9.toNat - 512 := by
  rw [memOffset, BitVec.toInt_signExtend_of_le (by decide), BitVec.toInt_eq_toNat_cond]
  split_ifs <;> omega

/-- A signed field of at most 61 bits times 4, with no wrap. -/
theorem toInt_signExtend_mul_four {n : Nat} (hn : n ≤ 61) (v : BitVec n) :
    (v.signExtend 64 * 4 : Doubleword).toInt = 4 * v.toInt := by
  have hle : (2 : Int) ^ (n - 1) ≤ 2 ^ 60 := by gcongr <;> omega
  have hlo := BitVec.le_toInt v
  have hhi := BitVec.toInt_lt (x := v)
  rw [BitVec.toInt_mul, BitVec.toInt_signExtend_of_le (by omega), show (4 : Doubleword).toInt = 4 from rfl,
    Int.bmod_eq_of_le (by omega) (by omega), Int.mul_comm]

theorem toInt_scaledOffset19 (imm19 : BitVec 19) : (scaledOffset19 imm19).toInt =
    4 * if imm19.toNat < 2 ^ 18 then (imm19.toNat : Int) else imm19.toNat - 2 ^ 19 := by
  rw [scaledOffset19, toInt_signExtend_mul_four (by decide), BitVec.toInt_eq_toNat_cond]
  split_ifs <;> omega

theorem toInt_scaledOffset26 (imm26 : BitVec 26) : (scaledOffset26 imm26).toInt =
    4 * if imm26.toNat < 2 ^ 25 then (imm26.toNat : Int) else imm26.toNat - 2 ^ 26 := by
  rw [scaledOffset26, toInt_signExtend_mul_four (by decide), BitVec.toInt_eq_toNat_cond]
  split_ifs <;> omega

/-! The kinds of each extractor. -/

theorem extractKind_of_arithImm {kind : Kind} (h : kind ∈ [Kind.addImm, .addsImm, .subImm, .subsImm, .cmpImm])
    (w : Word) : extractKind kind w = extractArithImm kind w := by
  fin_cases h <;> rfl

theorem extractKind_of_register {kind : Kind}
    (h : kind ∈ [Kind.addReg, .addsReg, .subReg, .subsReg, .cmpReg, .andsReg, .eorReg, .orrReg, .mul]) (w : Word) :
    extractKind kind w = extractRegister kind w := by
  fin_cases h <;> rfl

theorem extractKind_of_memory {kind : Kind} (h : kind ∈ [Kind.stur, .sturb, .sturh, .ldur, .ldurb, .ldurh])
    (w : Word) : extractKind kind w = extractMemory kind w := by
  fin_cases h <;> rfl

theorem extractKind_of_compareBranch {kind : Kind} (h : kind ∈ [Kind.cbz, .cbnz]) (w : Word) :
    extractKind kind w = extractCompareBranch kind w := by
  fin_cases h <;> rfl

theorem immediate_extractKind_of_offset19 {kind : Kind}
    (h : kind ∈ [Kind.cbz, .cbnz, .bEq, .bNe, .bGe, .bLt, .bGt, .bLe]) (w : Word) :
    (extractKind kind w).immediate = scaledOffset19 (fieldImm19 w) := by
  fin_cases h <;> rfl

/-! ### The statements on the six extractors -/

/-- Settles O10: the record is extractor 1's (R80). -/
theorem arithImmediateExtractor : Obligations.ArithImmediateExtractor := by
  intro w hkind
  rw [decodeRecord_eq_extractKind w, extractKind_of_arithImm hkind]
  refine ⟨toNat_fieldRd w, toNat_fieldRn w, ?_, ?_⟩
  · rw [extractArithImm, BitVec.toNat_setWidth_of_le (by decide), toNat_fieldShiftCode]
  · rw [extractArithImm, toNat_arithImmediate, toNat_fieldShiftCode, toNat_fieldImm12]

/-- Settles O11: the record is extractor 2's (R81). -/
theorem registerExtractor : Obligations.RegisterExtractor := by
  intro w hkind
  rw [decodeRecord_eq_extractKind w, extractKind_of_register hkind]
  exact ⟨toNat_fieldRd w, toNat_fieldRn w, toNat_fieldRm w⟩

/-- Settles O12: the record is extractor 3's (R82). -/
theorem moveWideExtractor : Obligations.MoveWideExtractor := by
  intro w hkind
  rw [decodeRecord_eq_extractKind w, hkind]
  exact ⟨toNat_fieldRd w, (toNat_movzImmediate _).trans (toNat_fieldImm16 w)⟩

/-- Settles O13: the record is extractor 4's, with each kind's own count (R83). -/
theorem shiftExtractor : Obligations.ShiftExtractor := by
  refine fun w => ⟨fun hkind => ?_, fun hkind => ?_⟩ <;> rw [decodeRecord_eq_extractKind w, hkind]
  · refine ⟨toNat_fieldRd w, toNat_fieldRn w, (toNat_leftShiftCount _).trans ?_⟩
    rw [toNat_fieldRotate]
  · exact ⟨toNat_fieldRd w, toNat_fieldRn w, toNat_fieldRotate w⟩

/-- Settles O14: the record is extractor 5's, and sign extension keeps the signed number (R84). -/
theorem memoryExtractor : Obligations.MemoryExtractor := by
  intro w hkind
  rw [decodeRecord_eq_extractKind w, extractKind_of_memory hkind]
  refine ⟨toNat_fieldRd w, toNat_fieldRn w, ?_⟩
  rw [extractMemory, toInt_memOffset, toNat_fieldImm9]

/-- Settles O15: the record is extractor 6's, and no scaled offset wraps (R85). -/
theorem controlFlowExtractor : Obligations.ControlFlowExtractor := by
  intro w
  have hrec := decodeRecord_eq_extractKind w
  generalize (decodeRecord w).kind = kind at hrec ⊢
  rw [hrec]
  refine ⟨?_, ?_, fun hkind => ?_, fun hkind => ?_⟩
  · rintro rfl
    rw [← toNat_fieldImm26]
    exact toInt_scaledOffset26 (fieldImm26 w)
  · rintro rfl
    exact toNat_fieldRd w
  · rw [extractKind_of_compareBranch hkind]
    exact toNat_fieldRd w
  · rw [immediate_extractKind_of_offset19 hkind, toInt_scaledOffset19, toNat_fieldImm19]

/-- No extractor but that of a register kind sets `rm`. -/
theorem rm_extractKind {kind : Kind}
    (h : kind ∉ [Kind.addReg, .addsReg, .subReg, .subsReg, .cmpReg, .andsReg, .eorReg, .orrReg, .mul]) (w : Word) :
    (extractKind kind w).rm = 0 := by
  cases kind with
  | addReg | addsReg | subReg | subsReg | cmpReg | andsReg | eorReg | orrReg | mul => simp at h
  | _ => rfl

/-- No extractor but those of an immediate arithmetic kind or a shift sets `shift`. -/
theorem shift_extractKind {kind : Kind}
    (h : kind ∉ [Kind.addImm, .addsImm, .subImm, .subsImm, .cmpImm, .lslImm, .lsrImm]) (w : Word) :
    (extractKind kind w).shift = 0 := by
  cases kind with
  | addImm | addsImm | subImm | subsImm | cmpImm | lslImm | lsrImm => simp at h
  | _ => rfl

/-- Settles O16: kind by kind, what its extractor sets. -/
theorem unsetRecordFieldsAreZero : Obligations.UnsetRecordFieldsAreZero := by
  intro w
  have hrec := decodeRecord_eq_extractKind w
  generalize (decodeRecord w).kind = kind at hrec ⊢
  rw [hrec]
  refine ⟨fun h => ?_, fun h => ?_, fun h => rm_extractKind h w, fun h => ?_, fun h => shift_extractKind h w,
    fun h => ?_⟩ <;> fin_cases h <;> rfl

end Sys2Proof
end

section
/-! PROOFS. The statements of spec/40_arith_immediate.md. First that each result shape completes from every state;
then that the model's operands are the exact sum and difference, narrowed once; then the two statements. -/

namespace Sys2Proof.Machine

/-! ### The result shapes complete -/

theorem writesRegister_writeResult (s : State) (rd : RegIdx) (v : Doubleword) :
    ∃ t, writeResult s rd v = .next t ∧ WritesRegister s t rd v :=
  have ⟨hwrites, _⟩ := writeResult_next (s := s) (rd := rd) (v := v) rfl
  ⟨_, rfl, hwrites⟩

theorem writesRegisterAndFlags_writeResultNZ (s : State) (rd : RegIdx) (v : Doubleword) :
    ∃ t, writeResultNZ s rd v = .next t ∧ WritesRegisterAndFlags s t rd v :=
  have ⟨hwrites, _⟩ := writeResultNZ_next (s := s) (rd := rd) (v := v) rfl
  ⟨_, rfl, hwrites⟩

theorem writesFlags_compareResult (s : State) (v : Doubleword) :
    ∃ t, compareResult s v = .next t ∧ WritesFlags s t v :=
  have ⟨hwrites, _⟩ := compareResult_next (s := s) (v := v) rfl
  ⟨_, rfl, hwrites⟩

/-! ### Exact arithmetic, narrowed once -/

/-- The operand of R110 is the exact value of the immediate: 24 bits never wrap. -/
theorem ofNat_immediateValue (shift : BitVec 2) (imm12 : BitVec 12) :
    BitVec.ofNat 64 (immediateValue shift imm12) = arithImmediate shift imm12 := by
  have hvalue : immediateValue shift imm12 = (arithImmediate shift imm12).toNat :=
    (toNat_arithImmediate shift imm12).symm
  rw [hvalue, BitVec.ofNat_toNat, BitVec.setWidth_eq]

/-- The wrapped exact sum (decision D4). -/
theorem ofNat_add_immediateValue (x : Doubleword) (shift : BitVec 2) (imm12 : BitVec 12) :
    BitVec.ofNat 64 (x.toNat + immediateValue shift imm12) = x + arithImmediate shift imm12 := by
  rw [BitVec.ofNat_add, ofNat_immediateValue, BitVec.ofNat_toNat, BitVec.setWidth_eq]

/-- The wrapped exact difference, of a signed register and an unsigned immediate (decision D4). -/
theorem ofInt_sub_immediateValue (x : Doubleword) (shift : BitVec 2) (imm12 : BitVec 12) :
    BitVec.ofInt 64 (x.toInt - immediateValue shift imm12) = x - arithImmediate shift imm12 := by
  rw [Int.sub_eq_add_neg, BitVec.ofInt_add, BitVec.ofInt_neg, BitVec.ofInt_toInt, BitVec.ofInt_natCast,
    ofNat_immediateValue, BitVec.sub_eq_add_neg]

/-! ### The statements -/

/-- Settles O17: both meanings are a result shape applied to the wrapped exact sum. -/
theorem addImmediateResult : Obligations.AddImmediateResult := by
  intro rd rn shift imm12 s
  rw [ofNat_add_immediateValue]
  exact ⟨writesRegister_writeResult s rd _, writesRegisterAndFlags_writeResultNZ s rd _⟩

/-- Settles O18: each of the three meanings is a result shape applied to the wrapped exact difference. -/
theorem subtractImmediateResult : Obligations.SubtractImmediateResult := by
  intro rd rn shift imm12 s
  rw [ofInt_sub_immediateValue]
  exact ⟨writesRegister_writeResult s rd _, writesRegisterAndFlags_writeResultNZ s rd _,
    writesFlags_compareResult s _⟩

end Sys2Proof.Machine
end

section
/-! PROOFS. The statements of spec/41_arith_logic_register.md. First when a word matches no entry of the table, by the
few rows that could take a word of its family; then that the model's sum, difference and product are the exact ones,
narrowed once; then the five statements. -/

namespace Sys2Proof

/-! ### Words that match no entry -/

/-- A word of a family, given as an entry's test, matches no entry when no row that overlaps the family takes it. -/
theorem decode_eq_noTableEntry {family : TableRow} {w : Word} (hw : family.matchesWord w = true)
    (hrows : ∀ row ∈ (decodeTable brRnLsb).filter (rowsOverlap family), row.matchesWord w = false) :
    decode w = .error .noTableEntry := by
  have hnone : lookupTag (decodeTable brRnLsb) w = none := by
    refine lookupTag_eq_none_iff.2 fun row hrow => ?_
    by_contra hmatch
    rw [Bool.not_eq_false] at hmatch
    have hoverlap : rowsOverlap family row = true := rowsOverlap_iff.2 ⟨w, hw, hmatch⟩
    simp [hrows row (List.mem_filter.2 ⟨hrow, hoverlap⟩)] at hmatch
  rw [decode, decodeWith, decodeIn, hnone]

/-- The words MUL's row takes, with bits[14:10], the addend's register, left free (R129). -/
def multiplyAddFamily : TableRow := ⟨0xFFE08000, 0x9B000000, .mul⟩

/-- MUL's row is the family with the addend fixed at register 31. -/
theorem mul_refinesAt_multiplyAddFamily (lsb : BrRnLsb) (rd rn rm : RegIdx) :
    RefinesAt (ownRow lsb (.mul rd rn rm)) multiplyAddFamily 10 zeroReg := by
  dsimp only [ownRow]
  refine ⟨?_, ?_, ?_, ?_, ?_⟩ <;> decide

/-- No other row overlaps the family. -/
theorem rows_overlapping_multiplyAddFamily (rd rn rm : RegIdx) :
    (decodeTable brRnLsb).filter (rowsOverlap multiplyAddFamily) = [ownRow brRnLsb (.mul rd rn rm)] := by
  dsimp only [ownRow]
  decide

/-- A multiply-add whose addend is not register 31 matches no entry (R129). -/
theorem decode_multiplyAdd {w : Word} (hw : w &&& 0xFFE08000 = 0x9B000000) (hra : w &&& 0x00007C00 ≠ 0x00007C00) :
    decode w = .error .noTableEntry := by
  refine decode_eq_noTableEntry (family := multiplyAddFamily) (matchesWord_iff.2 hw) fun row hrow => ?_
  rw [rows_overlapping_multiplyAddFamily 0 0 0, List.mem_singleton] at hrow
  rw [hrow, ← Bool.not_eq_true, (mul_refinesAt_multiplyAddFamily brRnLsb 0 0 0).matchesWord_iff]
  rintro ⟨_, haddend⟩
  have hfield := placed_extract w 10 5
  rw [haddend] at hfield
  exact hra hfield.symm

end Sys2Proof

namespace Sys2Proof.Machine

/-! ### Exact arithmetic, narrowed once -/

/-- The wrapped exact sum (decision D4). -/
theorem ofInt_toInt_add_toInt (x y : Doubleword) : BitVec.ofInt 64 (x.toInt + y.toInt) = x + y := by
  rw [BitVec.ofInt_add, BitVec.ofInt_toInt, BitVec.ofInt_toInt]

/-- The wrapped exact difference (decision D4). -/
theorem ofInt_toInt_sub_toInt (x y : Doubleword) : BitVec.ofInt 64 (x.toInt - y.toInt) = x - y := by
  rw [Int.sub_eq_add_neg, BitVec.ofInt_add, BitVec.ofInt_neg, BitVec.ofInt_toInt, BitVec.ofInt_toInt,
    BitVec.sub_eq_add_neg]

/-- The low 64 bits of the signed product (R129, decision D4). -/
theorem ofInt_toInt_mul_toInt (x y : Doubleword) : BitVec.ofInt 64 (x.toInt * y.toInt) = x * y := by
  rw [BitVec.ofInt_mul, BitVec.ofInt_toInt, BitVec.ofInt_toInt]

/-- The low 64 bits of the unsigned product (R129, decision D4). -/
theorem ofNat_toNat_mul_toNat (x y : Doubleword) : BitVec.ofNat 64 (x.toNat * y.toNat) = x * y := by
  rw [BitVec.ofNat_mul, BitVec.ofNat_toNat, BitVec.ofNat_toNat, BitVec.setWidth_eq, BitVec.setWidth_eq]

/-! ### The statements -/

/-- Settles O19: both meanings are a result shape applied to the wrapped exact sum. -/
theorem addRegisterResult : Obligations.AddRegisterResult := by
  intro rd rn rm s
  rw [ofInt_toInt_add_toInt]
  exact ⟨writesRegister_writeResult s rd _, writesRegisterAndFlags_writeResultNZ s rd _⟩

/-- Settles O20: each of the three meanings is a result shape applied to the wrapped exact difference. -/
theorem subtractRegisterResult : Obligations.SubtractRegisterResult := by
  intro rd rn rm s
  rw [ofInt_toInt_sub_toInt]
  exact ⟨writesRegister_writeResult s rd _, writesRegisterAndFlags_writeResultNZ s rd _,
    writesFlags_compareResult s _⟩

/-- Settles O21: the result is the word of the bits' ANDs, written with the flags. -/
theorem andsResult : Obligations.AndsResult := by
  intro rd rn rm s
  obtain ⟨t, hexec, hwrites⟩ := writesRegisterAndFlags_writeResultNZ s rd (s.readReg rn &&& s.readReg rm)
  exact ⟨t, _, hexec, fun _ _ => BitVec.getLsbD_and, hwrites⟩

/-- Settles O22: the words are the encoder's, and each result is the word of the bits' results. -/
theorem exclusiveOrAndOrResult : Obligations.ExclusiveOrAndOrResult := by
  intro rd rn rm s
  obtain ⟨t, hexec, hwrites⟩ := writesRegister_writeResult s rd (s.readReg rn ^^^ s.readReg rm)
  obtain ⟨t', hexec', hwrites'⟩ := writesRegister_writeResult s rd (s.readReg rn ||| s.readReg rm)
  exact ⟨decodeOfEncode brRnLsb (.eorReg rd rn rm) rfl, decodeOfEncode brRnLsb (.orrReg rd rn rm) rfl,
    ⟨t, _, hexec, fun _ _ => BitVec.getLsbD_xor, hwrites⟩, ⟨t', _, hexec', fun _ _ => BitVec.getLsbD_or, hwrites'⟩⟩

/-- Settles O23: the word is the encoder's, both readings of the product narrow to the model's, and a multiply-add
differs from MUL's row in the addend. -/
theorem multiplyResult : Obligations.MultiplyResult := by
  refine ⟨fun rd rn rm s => ⟨decodeOfEncode brRnLsb (.mul rd rn rm) rfl, ?_⟩, fun w => decode_multiplyAdd⟩
  obtain ⟨t, hexec, hwrites⟩ := writesRegister_writeResult s rd (s.readReg rn * s.readReg rm)
  rw [ofNat_toNat_mul_toNat, ofInt_toInt_mul_toInt]
  exact ⟨t, hexec, hwrites, hwrites⟩

end Sys2Proof.Machine
end

section
/-! PROOFS. The statement of spec/42_move_wide.md. A move-wide word with MOVZ's opcode decodes to MOVZ whatever its
selector; the other move-wide families share no word with any row of the table. -/

namespace Sys2Proof

/-! ### The words of MOVZ -/

/-- The selector's place is outside the row's mask and outside the fields that the extractor reads (R140). -/
theorem decode_movzWord (rd : RegIdx) (hw : BitVec 2) (imm16 : BitVec 16) :
    decode (0xD2800000 ||| placed hw 21 ||| placed imm16 5 ||| placed rd 0) = .ok (.movz rd imm16) := by
  refine decodeWith_eq_ok_iff.2 ⟨matchesWord_iff.2 ?_, (fun j hj => by cases hj), ?_⟩
  · have hsel : placed hw 21 &&& 0xFF800000 = 0 := placed_and _ (by decide)
    have himm : placed imm16 5 &&& 0xFF800000 = 0 := placed_and _ (by decide)
    have hrd : placed rd 0 &&& 0xFF800000 = 0 := placed_and _ (by decide)
    simp only [ownRow, BitVec.and_or_distrib_right, hsel, himm, hrd]
    decide
  · simp [ownRow, extractInstr, fieldRd, fieldImm16, BitVec.extractLsb'_or]

/-! ### The other move-wide words -/

/-- The words of a move-wide opcode, its nine bits [31:23], with selector, immediate and destination left free. -/
def moveWideFamily (opcode : Word) : TableRow := ⟨0xFF800000, opcode, .movz⟩

/-- No row overlaps the families of MOVK, of MOVN and of the 32-bit MOVZ. -/
theorem rows_overlapping_moveWideFamily {opcode : Word}
    (h : opcode = 0xF2800000 ∨ opcode = 0x92800000 ∨ opcode = 0x52800000) :
    (decodeTable brRnLsb).filter (rowsOverlap (moveWideFamily opcode)) = [] := by
  obtain rfl | rfl | rfl := h <;> decide

/-- A MOVK, a MOVN or a 32-bit MOVZ matches no entry (R140). -/
theorem decode_otherMoveWide {w : Word} (hw : w &&& 0xFF800000 = 0xF2800000 ∨ w &&& 0xFF800000 = 0x92800000 ∨
    w &&& 0xFF800000 = 0x52800000) : decode w = .error .noTableEntry := by
  refine decode_eq_noTableEntry (family := moveWideFamily (w &&& 0xFF800000)) (matchesWord_iff.2 rfl) ?_
  rw [rows_overlapping_moveWideFamily hw]
  exact List.forall_mem_nil _

end Sys2Proof

namespace Sys2Proof.Machine

/-- The immediate of R82 is the exact value of the field: 16 bits never wrap. -/
theorem ofNat_toNat_eq_movzImmediate (imm16 : BitVec 16) : BitVec.ofNat 64 imm16.toNat = movzImmediate imm16 :=
  BitVec.ofNat_toNat 64 imm16

/-! ### The statement -/

/-- Settles O24: the word is MOVZ's for every selector, the meaning is a result shape applied to the immediate, and
each other family matches no entry. -/
theorem moveWideResult : Obligations.MoveWideResult := by
  refine ⟨fun rd hw imm16 s => ⟨?_, ?_⟩, fun w => decode_otherMoveWide⟩
  · simpa [placed] using decode_movzWord rd hw imm16
  · rw [ofNat_toNat_eq_movzImmediate]
    exact writesRegister_writeResult s rd _

end Sys2Proof.Machine
end

section
/-! PROOFS. The statements of spec/43_shift_immediate.md. A word of the shift family is a left shift unless its
bits[15:10] are the value that LSR_IMM's row fixes; the arithmetic shift's words match no row; and the model's shifts
are the exact product and quotient by a power of 2. -/

namespace Sys2Proof

/-! ### The words of LSL_IMM -/

/-- R83's count of a rotate field needs no `mod 64` of its own: six bits hold no more. -/
theorem ofNat_sub_eq_leftShiftCount (rotate : BitVec 6) :
    BitVec.ofNat 6 (64 - rotate.toNat) = leftShiftCount rotate := by
  apply BitVec.eq_of_toNat_eq
  rw [toNat_leftShiftCount, BitVec.toNat_ofNat]

/-- The spare bits are outside the row's mask and outside the fields that the extractor reads; they only have to differ
from what LSR_IMM's row fixes there (R91, R145). -/
theorem decode_lslWord (rd rn : RegIdx) (rotate : BitVec 6) {spare : BitVec 6} (hspare : spare ≠ 63) :
    decode (0xD3400000 ||| placed rotate 16 ||| placed spare 10 ||| placed rn 5 ||| placed rd 0) =
      .ok (.lslImm rd rn (leftShiftCount rotate)) := by
  refine decodeWith_eq_ok_iff.2 ⟨matchesWord_iff.2 ?_, fun j hj => ?_, ?_⟩
  · have hrotate : placed rotate 16 &&& 0xFFC00000 = 0 := placed_and _ (by decide)
    have hfree : placed spare 10 &&& 0xFFC00000 = 0 := placed_and _ (by decide)
    have hrn : placed rn 5 &&& 0xFFC00000 = 0 := placed_and _ (by decide)
    have hrd : placed rd 0 &&& 0xFFC00000 = 0 := placed_and _ (by decide)
    simp only [ownRow, BitVec.and_or_distrib_right, hrotate, hfree, hrn, hrd]
    decide
  · cases hj
    rw [← Bool.not_eq_true, (lsrImm_refinesAt_lslImm brRnLsb rd rn _).matchesWord_iff]
    rintro ⟨_, hfixed⟩
    refine hspare ?_
    simpa [BitVec.extractLsb'_or] using hfixed
  · simp [ownRow, extractInstr, fieldRd, fieldRn, fieldRotate, BitVec.extractLsb'_or]

/-! ### The words of LSR_IMM and of the arithmetic shift -/

/-- The encoder's word for a right shift is the fixed bits with count, `rn` and `rd` (R94, R146). -/
theorem decode_lsrWord (rd rn : RegIdx) (count : BitVec 6) :
    decode (0xD340FC00 ||| placed count 16 ||| placed rn 5 ||| placed rd 0) = .ok (.lsrImm rd rn count) := by
  have hword : encode (.lsrImm rd rn count) = 0xD340FC00 ||| placed count 16 ||| placed rn 5 ||| placed rd 0 := by
    simp only [encode, encodeWith_eq, ownRow, operandBits, ← BitVec.or_assoc]
  rw [← hword]
  exact decodeOfEncode brRnLsb (.lsrImm rd rn count) rfl

/-- The words of ASR with an immediate count, with count and registers left free: LSR_IMM's row but for bit 30. -/
def arithmeticShiftFamily : TableRow := ⟨0xFFC0FC00, 0x9340FC00, .lsrImm⟩

theorem rows_overlapping_arithmeticShiftFamily :
    (decodeTable brRnLsb).filter (rowsOverlap arithmeticShiftFamily) = [] := by
  decide

/-- An arithmetic right shift matches no entry (R146). -/
theorem decode_arithmeticShift {w : Word} (hw : w &&& 0xFFC0FC00 = 0x9340FC00) :
    decode w = .error .noTableEntry := by
  refine decode_eq_noTableEntry (family := arithmeticShiftFamily) (matchesWord_iff.2 hw) ?_
  rw [rows_overlapping_arithmeticShiftFamily]
  exact List.forall_mem_nil _

end Sys2Proof

namespace Sys2Proof.Machine

/-! ### Exact arithmetic, narrowed once -/

/-- A left shift is the exact product by a power of 2, modulo 2^64: bits past bit 63 are lost (R145). -/
theorem ofNat_mul_two_pow (x : Doubleword) (count : BitVec 6) :
    BitVec.ofNat 64 (x.toNat * 2 ^ count.toNat) = shiftLeft x count := by
  apply BitVec.eq_of_toNat_eq
  rw [shiftLeft, BitVec.toNat_shiftLeft, BitVec.toNat_ofNat, Nat.shiftLeft_eq]

/-- A right shift is the quotient of the unsigned value by a power of 2, which never wraps (R146). -/
theorem ofNat_div_two_pow (x : Doubleword) (count : BitVec 6) :
    BitVec.ofNat 64 (x.toNat / 2 ^ count.toNat) = shiftRight x count := by
  rw [← Nat.shiftRight_eq_div_pow, ← BitVec.toNat_ushiftRight, BitVec.ofNat_toNat, BitVec.setWidth_eq]
  rfl

/-! ### The statements -/

/-- Settles O25: the word is LSL_IMM's for every spare value but LSR_IMM's, and the meaning is a result shape applied to
the wrapped product. -/
theorem leftShiftResult : Obligations.LeftShiftResult := by
  refine fun rd rn rotate spare count s => ⟨fun hspare => ?_, ?_⟩
  · rw [ofNat_sub_eq_leftShiftCount]
    simpa [placed] using decode_lslWord rd rn rotate hspare
  · rw [ofNat_mul_two_pow]
    exact writesRegister_writeResult s rd _

/-- Settles O26: the word is the encoder's, the meaning is a result shape applied to the quotient, and an arithmetic
shift matches no entry. -/
theorem rightShiftResult : Obligations.RightShiftResult := by
  refine ⟨fun rd rn count s => ⟨?_, ?_⟩, fun w => decode_arithmeticShift⟩
  · simpa [placed] using decode_lsrWord rd rn count
  · rw [ofNat_div_two_pow]
    exact writesRegister_writeResult s rd _

end Sys2Proof.Machine
end

section
/-! PROOFS. The statements of spec/44_load_store.md. First values that are equal byte by byte and the exact address;
then, for each of the six instructions, what it did when it completed, in the bytes of the store; then the statements:
a load of the bytes a store left is the value stored. -/

namespace Sys2Proof.Machine

/-! ### Values by their bytes -/

/-- A value of `n` bytes is what its bytes are. -/
theorem eq_of_bytes {n : Nat} {x y : BitVec (8 * n)}
    (h : ∀ j < n, x.extractLsb' (8 * j) 8 = y.extractLsb' (8 * j) 8) : x = y := by
  apply BitVec.eq_of_getLsbD_eq
  intro k hk
  have hbit := congrArg (BitVec.getLsbD · (k % 8)) (h (k / 8) (by omega))
  simpa [BitVec.getLsbD_extractLsb', Nat.mod_lt, Nat.div_add_mod] using hbit

/-- The two bytes of the halfword that STURH takes from a register (R153). -/
theorem byte_lowHalf (v : Doubleword) {j : Nat} (hj : j < 2) :
    (lowHalf v).extractLsb' (8 * j) 8 = v.extractLsb' (8 * j) 8 := by
  apply BitVec.eq_of_getLsbD_eq
  intro k hk
  have hin : 8 * j + k < 16 := by omega
  simp [lowHalf, hk, hin]

theorem ofNat_toNat_eq_zeroExtendByte (b : Byte) : BitVec.ofNat 64 b.toNat = zeroExtendByte b :=
  BitVec.ofNat_toNat 64 b

theorem ofNat_toNat_eq_zeroExtendHalf (h : Halfword) : BitVec.ofNat 64 h.toNat = zeroExtendHalf h :=
  BitVec.ofNat_toNat 64 h

theorem toNat_zeroExtendByte (b : Byte) : (zeroExtendByte b).toNat = b.toNat :=
  BitVec.toNat_setWidth_of_le (by decide)

theorem toNat_zeroExtendHalf (h : Halfword) : (zeroExtendHalf h).toNat = h.toNat :=
  BitVec.toNat_setWidth_of_le (by decide)

theorem toNat_lowByte (v : Doubleword) : (lowByte v).toNat = v.toNat % 2 ^ 8 := BitVec.extractLsb'_toNat ..

theorem toNat_lowHalf (v : Doubleword) : (lowHalf v).toNat = v.toNat % 2 ^ 16 := BitVec.extractLsb'_toNat ..

/-- A halfword as a number, low byte first (decision D5). -/
theorem toNat_halfword (h : Halfword) :
    h.toNat = (h.extractLsb' 0 8).toNat + 256 * (h.extractLsb' 8 8).toNat := by
  simp only [BitVec.extractLsb'_toNat, Nat.shiftRight_eq_div_pow]
  omega

/-! ### The address -/

/-- The address is the exact sum of base and signed offset, narrowed once (R44, decision D8). -/
theorem effectiveAddress_eq_ofInt (s : State) (rn : RegIdx) (imm9 : BitVec 9) :
    effectiveAddress s rn imm9 = BitVec.ofInt 64 ((s.readReg rn).toInt + imm9.toInt) := by
  rw [BitVec.ofInt_add, BitVec.ofInt_toInt]
  rfl

/-! ### What a store did -/

/-- A store whose memory reads as `n` bytes of `v` at `a` and elsewhere as before changed those bytes alone. -/
theorem storesBytes_of_storeResult {s t : State} {m : Memory} {a : Addr} {n : Nat} {v : Doubleword}
    (h : storeResult s m = .next t)
    (hread : ∀ b, m.readByte b =
      if (b - a).toNat < n then v.extractLsb' (8 * (b - a).toNat) 8 else s.memory.readByte b) :
    StoresBytes s t a n v := by
  obtain ⟨hregs, _, hflags, hhalted, hpc, rfl⟩ := storeResult_next h
  exact ⟨hregs, hflags, hhalted, hpc, hread⟩

theorem storesBytes_of_exec_stur {s t : State} {rd rn : RegIdx} {imm9 : BitVec 9}
    (h : exec (.stur rd rn imm9) s = .next t) :
    StoresBytes s t (effectiveAddress s rn imm9) 8 (s.readReg rd) :=
  storesBytes_of_storeResult h fun _ => readByte_write64 ..

/-- The one byte of STURB is the one at distance 0 from its address. -/
theorem storesBytes_of_exec_sturb {s t : State} {rd rn : RegIdx} {imm9 : BitVec 9}
    (h : exec (.sturb rd rn imm9) s = .next t) :
    StoresBytes s t (effectiveAddress s rn imm9) 1 (s.readReg rd) := by
  refine storesBytes_of_storeResult h fun b => ?_
  rw [readByte_write8]
  by_cases hb : b = effectiveAddress s rn imm9
  · rw [if_pos hb, hb, BitVec.sub_self]
    rfl
  · rw [if_neg hb, if_neg (by bv_omega)]

theorem storesBytes_of_exec_sturh {s t : State} {rd rn : RegIdx} {imm9 : BitVec 9}
    (h : exec (.sturh rd rn imm9) s = .next t) :
    StoresBytes s t (effectiveAddress s rn imm9 &&& ~~~1#64) 2 (s.readReg rd) := by
  refine storesBytes_of_storeResult h fun b => ?_
  rw [readByte_write16]
  split_ifs with hb
  · exact byte_lowHalf _ hb
  · rfl

/-- The bytes a store left, counted from its address; none of them wraps onto another. -/
theorem StoresBytes.readByte_add {s t : State} {a : Addr} {n : Nat} {v : Doubleword} (h : StoresBytes s t a n v)
    {k : Nat} (hk : k < n) (hk8 : k < 8) :
    t.memory.readByte (a + BitVec.ofNat 64 k) = v.extractLsb' (8 * k) 8 := by
  obtain ⟨_, _, _, _, hread⟩ := h
  have hdist : (a + BitVec.ofNat 64 k - a).toNat = k := by bv_omega
  rw [hread, hdist, if_pos hk]

/-! ### What a load did -/

theorem writesRegister_of_exec_ldur {s t : State} {rd rn : RegIdx} {imm9 : BitVec 9}
    (h : exec (.ldur rd rn imm9) s = .next t) :
    WritesRegister s t rd (s.memory.read64 (effectiveAddress s rn imm9)) :=
  (writeResult_next h).1

theorem writesRegister_of_exec_ldurb {s t : State} {rd rn : RegIdx} {imm9 : BitVec 9}
    (h : exec (.ldurb rd rn imm9) s = .next t) :
    WritesRegister s t rd (zeroExtendByte (s.memory.read8 (effectiveAddress s rn imm9))) :=
  (writeResult_next h).1

theorem writesRegister_of_exec_ldurh {s t : State} {rd rn : RegIdx} {imm9 : BitVec 9}
    (h : exec (.ldurh rd rn imm9) s = .next t) :
    WritesRegister s t rd (zeroExtendHalf (s.memory.read16 (effectiveAddress s rn imm9))) :=
  (writeResult_next h).1

theorem WritesRegister.readReg_eq {s t : State} {rd : RegIdx} {v : Doubleword} (h : WritesRegister s t rd v)
    (hrd : rd ≠ zeroReg) : t.readReg rd = v := by
  obtain ⟨hreg, _⟩ := h
  rw [hreg, if_pos ⟨rfl, hrd⟩]

/-- The halfword LDURH reads, as a number of the two bytes at the address with bit 0 cleared (R48, decision D21). -/
theorem toNat_read16 (m : Memory) (a : Addr) :
    (m.read16 a).toNat = (m.readByte (a &&& ~~~1#64)).toNat + 256 * (m.readByte ((a &&& ~~~1#64) + 1)).toNat := by
  have hlow : (m.read16 a).extractLsb' 0 8 = m.readByte (a &&& ~~~1#64) := by
    rw [← BitVec.add_zero (a &&& ~~~1#64)]
    exact read16_byte m a 0 (by decide)
  have hhigh : (m.read16 a).extractLsb' 8 8 = m.readByte ((a &&& ~~~1#64) + 1) := read16_byte m a 1 (by decide)
  rw [toNat_halfword, hlow, hhigh]

/-! ### A load of the bytes a store left -/

theorem StoresBytes.read64_eq {s t : State} {a : Addr} {v : Doubleword} (h : StoresBytes s t a 8 v) :
    t.memory.read64 a = v :=
  eq_of_bytes (n := 8) fun j hj => (read64_byte _ a j hj).trans (h.readByte_add hj hj)

theorem StoresBytes.read8_eq {s t : State} {a : Addr} {v : Doubleword} (h : StoresBytes s t a 1 v) :
    t.memory.read8 a = lowByte v := by
  have hbyte := h.readByte_add Nat.zero_lt_one (by decide)
  rw [BitVec.add_zero] at hbyte
  exact (Machine.read8_eq _ a).trans hbyte

/-- Store and load clear the same bit 0, so an odd address gives the halfword back too. -/
theorem StoresBytes.read16_eq {s t : State} {a : Addr} {v : Doubleword}
    (h : StoresBytes s t (a &&& ~~~1#64) 2 v) : t.memory.read16 a = lowHalf v :=
  eq_of_bytes (n := 2) fun j hj => by
    rw [read16_byte _ a j hj, h.readByte_add hj (by omega), byte_lowHalf v hj]

/-! ### The statements -/

/-- Settles O27: the address is the exact sum, narrowed once, and the completed STUR stored its eight bytes. -/
theorem storeDoublewordBytes : Obligations.StoreDoublewordBytes :=
  fun _ rn imm9 s => ⟨effectiveAddress_eq_ofInt s rn imm9, _, rfl, storesBytes_of_exec_stur rfl⟩

/-- Settles O28: the read-modify-write of the word changes the one byte. -/
theorem storeByteChangesOneByte : Obligations.StoreByteChangesOneByte :=
  fun _ _ _ _ => ⟨_, rfl, storesBytes_of_exec_sturb rfl⟩

/-- Settles O29: the halfword's lane begins at the address with bit 0 cleared, whatever the address. -/
theorem storeHalfwordIgnoresAddressBitZero : Obligations.StoreHalfwordIgnoresAddressBitZero :=
  fun _ _ _ _ => ⟨_, rfl, storesBytes_of_exec_sturh rfl⟩

/-- Settles O30: the value written is the doubleword read, known byte by byte. -/
theorem loadDoublewordResult : Obligations.LoadDoublewordResult :=
  fun _ _ _ _ => ⟨_, _, rfl, writesRegister_of_exec_ldur rfl, fun k hk => read64_byte _ _ k hk⟩

/-- Settles O31: each value written is zero-extended, hence the number that its bytes make. -/
theorem narrowLoadsZeroExtend : Obligations.NarrowLoadsZeroExtend := by
  refine fun rd rn imm9 s => ⟨⟨_, rfl, ?_⟩, ⟨_, rfl, ?_⟩⟩
  · rw [← read8_eq, ofNat_toNat_eq_zeroExtendByte]
    exact writesRegister_of_exec_ldurb rfl
  · rw [← toNat_read16, ofNat_toNat_eq_zeroExtendHalf]
    exact writesRegister_of_exec_ldurh rfl

/-- Settles O32: the load reads the eight bytes the store left. -/
theorem doublewordStoreThenLoad : Obligations.DoublewordStoreThenLoad := by
  intro rd rn rd' rn' imm9 imm9' s t u hstore hload haddr hrd
  rw [(writesRegister_of_exec_ldur hload).readReg_eq hrd, haddr, (storesBytes_of_exec_stur hstore).read64_eq]

/-- Settles O33: the load reads the low byte or halfword that the store left, and zero-extends it. -/
theorem narrowStoreThenLoad : Obligations.NarrowStoreThenLoad := by
  constructor
  · intro rd rn rd' rn' imm9 imm9' s t u hstore hload haddr hrd
    rw [(writesRegister_of_exec_ldurb hload).readReg_eq hrd, haddr, (storesBytes_of_exec_sturb hstore).read8_eq,
      toNat_zeroExtendByte, toNat_lowByte]
  · intro rd rn rd' rn' imm9 imm9' s t u hstore hload haddr hrd
    rw [(writesRegister_of_exec_ldurh hload).readReg_eq hrd, haddr, (storesBytes_of_exec_sturh hstore).read16_eq,
      toNat_zeroExtendHalf, toNat_lowHalf]

end Sys2Proof.Machine
end

section
/-! PROOFS. The statements of spec/45_control_flow.md, and of spec/60_exceptions.md on what a step can answer. First the
words of BR and the families whose words match no entry; then that a branch completes at the exact target, narrowed
once; then the five statements. -/

namespace Sys2Proof

/-! ### The words of BR -/

/-- With BR_RN_LSB = 0 the place of bits[9:5] is outside the row's mask and outside the field that the extractor reads
(R85, decision D18). -/
theorem decodeWith_brWord (rn spare : RegIdx) :
    decodeWith .bit0 (0xD61F0000 ||| placed spare 5 ||| placed rn 0) = .ok (.br rn) := by
  refine decodeWith_eq_ok_iff.2 ⟨matchesWord_iff.2 ?_, (fun j hj => by cases hj), ?_⟩
  · have hspare : placed spare 5 &&& 0xFFFFFC00 = 0 := placed_and _ (by decide)
    have hrn : placed rn 0 &&& 0xFFFFFC00 = 0 := placed_and _ (by decide)
    simp only [ownRow, brRow, BitVec.and_or_distrib_right, hspare, hrn]
    decide
  · simp [ownRow, brRow, extractInstr, fieldBrRn, BitVec.extractLsb'_or]

/-! ### Branch words that match no entry -/

/-- A word of a family that no row of the table overlaps matches no entry. -/
theorem decode_of_no_overlap {family : TableRow}
    (hfree : (decodeTable brRnLsb).filter (rowsOverlap family) = []) {w : Word}
    (hw : w &&& family.mask = family.expected) : decode w = .error .noTableEntry := by
  refine decode_eq_noTableEntry (matchesWord_iff.2 hw) ?_
  rw [hfree]
  exact List.forall_mem_nil _

/-- The words of a branch with link: B's row but for bit 31 (R171). -/
def branchWithLinkFamily : TableRow := ⟨0xFC000000, 0x94000000, .b⟩

theorem rows_overlapping_branchWithLinkFamily :
    (decodeTable brRnLsb).filter (rowsOverlap branchWithLinkFamily) = [] := by
  decide

/-- The words of a 32-bit compare and branch: CBZ's row but for bit 31 (R173). -/
def narrowCompareBranchFamily : TableRow := ⟨0xFF000000, 0x34000000, .cbz⟩

theorem rows_overlapping_narrowCompareBranchFamily :
    (decodeTable brRnLsb).filter (rowsOverlap narrowCompareBranchFamily) = [] := by
  decide

end Sys2Proof

namespace Sys2Proof.Machine

/-! ### The target -/

/-- A program counter plus a scaled offset is the exact sum, narrowed once (R170, decision D9). -/
theorem add_scaledOffset_eq_ofInt {n : Nat} (hn : n ≤ 61) (a : Addr) (offset : BitVec n) :
    a + offset.signExtend 64 * 4 = BitVec.ofInt 64 (a.toNat + 4 * offset.toInt) := by
  rw [← toInt_signExtend_mul_four hn, BitVec.ofInt_add, BitVec.ofInt_toInt, BitVec.ofInt_natCast, BitVec.ofNat_toNat,
    BitVec.setWidth_eq]

theorem branchTarget19_eq_ofInt (s : State) (imm19 : BitVec 19) :
    branchTarget19 s imm19 = BitVec.ofInt 64 (s.programCounter.toNat + 4 * imm19.toInt) :=
  add_scaledOffset_eq_ofInt (by decide) s.programCounter imm19

theorem branchTarget26_eq_ofInt (s : State) (imm26 : BitVec 26) :
    branchTarget26 s imm26 = BitVec.ofInt 64 (s.programCounter.toNat + 4 * imm26.toInt) :=
  add_scaledOffset_eq_ofInt (by decide) s.programCounter imm26

/-! ### A branch completes -/

/-- A branch goes to its target or takes the default advance, as its predicate says, and changes nothing else (R170). -/
theorem jumpsTo_branchResult (s : State) {taken : Bool} {p : Prop} [Decidable p] (hp : taken = true ↔ p)
    (target : Addr) :
    ∃ t, branchResult s taken target = .next t ∧ JumpsTo s t (if p then target else s.programCounter + 4) := by
  have htarget : (if taken then target else s.programCounter + 4) = if p then target else s.programCounter + 4 :=
    if_congr hp rfl rfl
  obtain ⟨hjump, _⟩ := branchResult_next (rfl : branchResult s taken target = .next _)
  exact ⟨_, rfl, htarget ▸ hjump⟩

/-- A branch that is always taken goes to its target. -/
theorem jumpsTo_branchResult_always (s : State) (target : Addr) :
    ∃ t, branchResult s true target = .next t ∧ JumpsTo s t target := by
  simpa using jumpsTo_branchResult s (iff_of_true rfl trivial) target

/-! ### The predicates -/

/-- CBZ's test of all 64 bits (R173). -/
theorem beq_zero_iff_toNat (x : Doubleword) : (x == 0) = true ↔ x.toNat = 0 :=
  beq_iff_eq.trans BitVec.toNat_inj.symm

/-- CBNZ's test of all 64 bits (R174). -/
theorem bne_zero_iff_toNat (x : Doubleword) : (x != 0) = true ↔ x.toNat ≠ 0 :=
  bne_iff_ne.trans (not_congr BitVec.toNat_inj.symm)

theorem condNe_iff (f : Flags) : condNe f = true ↔ f.zero = false := by
  rw [condNe, Bool.not_eq_true']

theorem condGe_iff (f : Flags) : condGe f = true ↔ f.negative = false := by
  rw [condGe, Bool.not_eq_true']

theorem condGt_iff (f : Flags) : condGt f = true ↔ f.zero = false ∧ f.negative = false := by
  rw [condGt, Bool.and_eq_true, Bool.not_eq_true', Bool.not_eq_true']

theorem condLe_iff (f : Flags) : condLe f = true ↔ f.zero = true ∨ f.negative = true := by
  rw [condLe, Bool.or_eq_true]

/-- A line of R87's table whose meaning is a branch on a predicate over the flags of Current. -/
theorem conditionalBranch_of_exec_eq {i : Instr} {cond : BitVec 4} {imm19 : BitVec 19} {holds : Flags → Bool}
    {taken : Flags → Prop} (hcode : ConditionBranch cond imm19 i)
    (hexec : ∀ s, exec i s = branchResult s (holds s.flags) (branchTarget19 s imm19))
    (htaken : ∀ f, holds f = true ↔ taken f) : ConditionalBranch i cond imm19 taken := by
  classical
  refine ⟨(decode_conditionalWord imm19 cond).trans (resolveCondition_eq_ok_iff.2 hcode), fun s => ?_⟩
  have hjump := jumpsTo_branchResult s (htaken s.flags) (branchTarget19 s imm19)
  rw [← hexec, branchTarget19_eq_ofInt] at hjump
  constructor
  · intro h; rwa [if_pos h] at hjump
  · intro h; rwa [if_neg h] at hjump

/-! ### What a step answers -/

/-- R24's sequence always completes: every instruction does, and so does R192's no-op. -/
theorem exists_cycle_eq_next (s : State) : ∃ t, cycle s = .next t := by
  rcases cycle_cases s with ⟨i, _, hc⟩ | ⟨_, _, hc⟩
  · obtain ⟨e, he⟩ := exists_hasEffect i s
    exact ⟨(e.apply s).commit, by rw [hc, he.exec_eq]; rfl⟩
  · exact ⟨_, hc⟩

/-- A step completes from a halted or aligned state, and else is refused (R182, R201). -/
theorem step_completes_or_refused (s : State) :
    (s.Steppable ∧ s.StepSafe) ∨
      (¬ s.Steppable ∧ step s = .refused (.misalignedProgramCounter s.programCounter)) := by
  rcases step_cases s with ⟨hhalt, hs⟩ | ⟨hrun, hmis, hs⟩ | ⟨_, hpc, hs⟩
  · exact .inl ⟨.inl hhalt, s, hs⟩
  · exact .inr ⟨by simp [State.Steppable, hrun, hmis], hs⟩
  · obtain ⟨t, hc⟩ := exists_cycle_eq_next s
    exact .inl ⟨.inr hpc, t, hs.trans hc⟩

/-! ### The statements -/

/-- Settles O37: the word is the encoder's, the branch is always taken, and a branch with link matches no entry. -/
theorem unconditionalBranchTarget : Obligations.UnconditionalBranchTarget := by
  refine ⟨fun imm26 s => ⟨decodeOfEncode brRnLsb (.b imm26) rfl, ?_⟩,
    fun w => decode_of_no_overlap rows_overlapping_branchWithLinkFamily⟩
  rw [← branchTarget26_eq_ofInt]
  exact jumpsTo_branchResult_always s _

/-- Settles O38: bits[9:5] are read by nothing with BR_RN_LSB = 0, the word is the encoder's with BR_RN_LSB = 5, and
the target is the register. -/
theorem branchToRegisterTarget : Obligations.BranchToRegisterTarget := by
  refine fun rn spare s => ⟨?_, decodeOfEncode .bit5 (.br rn) rfl, jumpsTo_branchResult_always s _⟩
  simpa [placed] using decodeWith_brWord rn spare

/-- Settles O39: the words are the encoder's, each branch is taken as its 64-bit test says, and a 32-bit compare and
branch matches no entry. -/
theorem compareAndBranchTarget : Obligations.CompareAndBranchTarget := by
  refine ⟨fun rt imm19 s =>
      ⟨decodeOfEncode brRnLsb (.cbz rt imm19) rfl, decodeOfEncode brRnLsb (.cbnz rt imm19) rfl, ?_⟩,
    fun w => decode_of_no_overlap rows_overlapping_narrowCompareBranchFamily⟩
  rw [← branchTarget19_eq_ofInt]
  exact ⟨jumpsTo_branchResult s (beq_zero_iff_toNat _) _, jumpsTo_branchResult s (bne_zero_iff_toNat _) _⟩

/-- Settles O40: each kind is one line of R87's table with its predicate. -/
theorem conditionalBranchesFollowTheFlags : Obligations.ConditionalBranchesFollowTheFlags := fun _ =>
  ⟨conditionalBranch_of_exec_eq (holds := condEq) (.eq rfl) (fun _ => rfl) fun _ => Iff.rfl,
    conditionalBranch_of_exec_eq (.ne rfl) (fun _ => rfl) condNe_iff,
    conditionalBranch_of_exec_eq (.ge rfl) (fun _ => rfl) condGe_iff,
    conditionalBranch_of_exec_eq (holds := condLt) (.lt rfl) (fun _ => rfl) fun _ => Iff.rfl,
    conditionalBranch_of_exec_eq (.gt rfl) (fun _ => rfl) condGt_iff,
    conditionalBranch_of_exec_eq (.le rfl) (fun _ => rfl) condLe_iff⟩

/-- Settles O47: a completed step is no fault and no refusal, and a refused one is no completion. -/
theorem stepCompletesUnlessMisaligned : Obligations.StepCompletesUnlessMisaligned := by
  intro s
  rcases step_completes_or_refused s with ⟨hok, t, hs⟩ | ⟨hno, hs⟩
  · exact ⟨iff_of_true ⟨t, hs⟩ hok, fun f hf => by simp [hs] at hf, fun hno => absurd hok hno⟩
  · exact ⟨iff_of_false (fun ⟨t, ht⟩ => by simp [hs] at ht) hno, fun f hf => by simp [hs] at hf, fun _ => hs⟩

end Sys2Proof.Machine
end

section
/-! PROOFS. The statements of spec/46_halt_unrecognized.md. First the words of HLT and the words that the decoder
rejects; then what a step does in a halted machine and for a rejected word; then the three statements. -/

namespace Sys2Proof

/-! ### The words of HLT -/

/-- The immediate's place is outside the row's mask, and no extractor reads it (R86, R190). -/
theorem decode_hltWord (imm16 : BitVec 16) : decode (0xD4400000 ||| placed imm16 5) = .ok .hlt := by
  refine decodeWith_eq_ok_iff.2 ⟨matchesWord_iff.2 ?_, (fun j hj => by cases hj), rfl⟩
  have himm : placed imm16 5 &&& 0xFFE0001F = 0 := placed_and _ (by decide)
  simp only [ownRow, BitVec.and_or_distrib_right, himm]
  decide

/-- The exception-generating words of A64: top byte 0xD4, the rest free (R190). -/
def exceptionGeneratingFamily : TableRow := ⟨0xFF000000, 0xD4000000, .hlt⟩

/-- HLT's is the only row that overlaps the family. -/
theorem rows_overlapping_exceptionGeneratingFamily :
    (decodeTable brRnLsb).filter (rowsOverlap exceptionGeneratingFamily) = [ownRow brRnLsb .hlt] := by
  decide

/-- HLT's row fixes bits[23:21] and bits[4:0] of the words it takes. -/
theorem and_of_hlt_matchesWord {lsb : BrRnLsb} {w : Word} (h : (ownRow lsb .hlt).matchesWord w = true) :
    w &&& 0x00E0001F = 0x00400000 :=
  calc w &&& 0x00E0001F = w &&& 0xFFE0001F &&& 0x00E0001F := (BitVec.and_assoc w 0xFFE0001F 0x00E0001F).symm
    _ = 0xD4400000 &&& 0x00E0001F := congrArg (· &&& 0x00E0001F) (matchesWord_iff.1 h)
    _ = 0x00400000 := by decide

/-- An exception-generating word of another shape than HLT's matches no entry (R190). -/
theorem decode_otherExceptionGenerating {w : Word} (hw : w &&& 0xFF000000 = 0xD4000000)
    (hshape : w &&& 0x00E0001F ≠ 0x00400000) : decode w = .error .noTableEntry := by
  refine decode_eq_noTableEntry (family := exceptionGeneratingFamily) (matchesWord_iff.2 hw) fun row hrow => ?_
  rw [rows_overlapping_exceptionGeneratingFamily, List.mem_singleton] at hrow
  rw [hrow, ← Bool.not_eq_true]
  exact fun h => hshape (and_of_hlt_matchesWord h)

/-! ### The words that the decoder rejects -/

/-- R90's first cause. -/
theorem decode_eq_noTableEntry_of_forall_ne {w : Word}
    (h : ∀ row ∈ decodeTable brRnLsb, w &&& row.mask ≠ row.expected) : decode w = .error .noTableEntry := by
  have hnone : lookupTag (decodeTable brRnLsb) w = none :=
    lookupTag_eq_none_iff.2 fun row hrow => by
      rw [← Bool.not_eq_true, matchesWord_iff]
      exact h row hrow
  rw [decode, decodeWith, decodeIn, hnone]

theorem toNat_fieldCond (w : Word) : (fieldCond w).toNat = w.toNat % 16 := BitVec.extractLsb'_toNat ..

/-- The resolver accepts the six codes of R87 only. -/
theorem exists_resolveCondition_error {cond : BitVec 4} (imm19 : BitVec 19)
    (hcond : cond.toNat ∉ [0x0, 0x1, 0xA, 0xB, 0xC, 0xD]) : ∃ e, resolveCondition cond imm19 = .error e := by
  cases h : resolveCondition cond imm19 with
  | error e => exact ⟨e, rfl⟩
  | ok i =>
    refine absurd ?_ hcond
    obtain rfl | rfl | rfl | rfl | rfl | rfl := resolveCondition_eq_ok_iff.1 h <;> decide

/-- R90's second cause. -/
theorem exists_decode_error_of_unsupportedCondition {w : Word}
    (htag : lookupTag (decodeTable brRnLsb) w = some .bCond)
    (hcond : w.toNat % 16 ∉ [0x0, 0x1, 0xA, 0xB, 0xC, 0xD]) : ∃ e, decode w = .error e := by
  rw [decode, decodeWith, decodeIn, htag]
  rw [← toNat_fieldCond] at hcond
  exact exists_resolveCondition_error (fieldImm19 w) hcond

end Sys2Proof

namespace Sys2Proof.Machine

/-! ### The halted machine -/

/-- A step request in a halted machine is a no-op (R26, decision D11). -/
theorem step_of_halted {s : State} (hhalt : s.halted = true) : step s = .next s := by
  obtain ⟨_, hnoop, _⟩ := haltedIsWrittenByHltAndReadByNoInstruction
  exact (hnoop s hhalt).2

/-- The first of `n + 1` requests, when it completes, leaves `n` to be answered from the state it answers. -/
theorem run_succ_of_step {M : Host.Core} {s t : M.State} (h : M.step s = .next t) (n : Nat) :
    M.run (n + 1) s = M.run n t := by
  rw [Host.Core.run, h]

/-! ### A rejected word in a running machine -/

/-- The step is R192's no-op with its commit. -/
theorem step_of_decode_error {s : State} {e : Unrecognized} (hrun : s.halted = false)
    (hpc : s.programCounter.toNat % 4 = 0) (hdec : decode s.fetch = .error e) :
    step s = .next s.advance.commit := by
  change stepWith Parameters.default s = _
  rw [stepWith_of_running hrun hpc, default_memValid, firstOutside_all]
  exact cycleWith_of_decode_error hdec

/-- The tag reported is UNRECOGNIZED (R28, R192). -/
theorem stepKind_of_decode_error {s : State} {e : Unrecognized} (hrun : s.halted = false)
    (hpc : s.programCounter.toNat % 4 = 0) (hdec : decode s.fetch = .error e) :
    stepKind s = some .unrecognized := by
  rw [stepKind, stepRecord_eq, if_pos ⟨hrun, hpc⟩, decodeRecord_of_decode_error hdec]
  rfl

/-- The fetch is the only memory call (R192). -/
theorem stepCalls_of_decode_error {s : State} {e : Unrecognized} (hrun : s.halted = false)
    (hpc : s.programCounter.toNat % 4 = 0) (hdec : decode s.fetch = .error e) :
    stepCalls s = [.read s.programCounter] := by
  rw [stepCalls_eq, if_pos ⟨hrun, hpc⟩, hdec, decodedCalls]

/-! ### The statements -/

/-- Settles O41: HLT's words differ in the ignored immediate only, its meaning is the default advance with the halted
bit set, and no other row takes a word with its top byte. -/
theorem haltSetsHaltedOnly : Obligations.HaltSetsHaltedOnly :=
  ⟨fun imm16 s =>
      ⟨decode_hltWord imm16, s.advance.setHalted, rfl, rfl, rfl, fun _ => rfl, rfl, fun _ => rfl⟩,
    fun _ => decode_otherExceptionGenerating⟩

/-- Settles O42, by induction on the number of requests: the first one answers the same state. -/
theorem haltedMachineStaysAsItIs : Obligations.HaltedMachineStaysAsItIs := by
  intro n s hhalt
  induction n with
  | zero => rfl
  | succ n ih => exact (run_succ_of_step (M := Sys2Proof.core) (step_of_halted hhalt) n).trans ih

/-- Settles O44: either cause makes the decoder reject the word, and a step of a rejected word only advances. -/
theorem unrecognizedWordIsANoOp : Obligations.UnrecognizedWordIsANoOp := by
  intro s hrun hpc hcause
  obtain ⟨e, hdec⟩ : ∃ e, decode s.fetch = .error e := by
    rcases hcause with hnone | ⟨htag, hcond⟩
    · exact ⟨_, decode_eq_noTableEntry_of_forall_ne hnone⟩
    · exact exists_decode_error_of_unsupportedCondition htag hcond
  exact ⟨s.advance.commit, step_of_decode_error hrun hpc hdec, jumpsTo_advance_commit s,
    stepKind_of_decode_error hrun hpc hdec, stepCalls_of_decode_error hrun hpc hdec⟩

end Sys2Proof.Machine
end

section
/-! PROOFS. The statement that checks the decoder against words of spec/95_test_vectors.md: a word that the encoder
writes for an instruction decodes to it, so only the words with a bit that the encoder does not write, and the two that
are UNRECOGNIZED, need the facts about their own families. -/

namespace Sys2Proof

/-- A word that is the encoder's for a well-formed instruction decodes to that instruction. -/
theorem decode_of_encode_eq {w : Word} {i : Instr} (hwf : i.wellFormed = true) (hw : encode i = w) :
    decode w = .ok i :=
  hw ▸ decodeOfEncode brRnLsb i hwf

/-- Settles O1: eleven of the words are the encoder's; the MOVZ word has half-word selector 1, which the decoder
ignores; no row takes 0xD503201F, and the resolver has no line for condition code 2. -/
theorem specWordsDecode : Obligations.SpecWordsDecode :=
  ⟨decode_of_encode_eq rfl (by decide),
    decode_of_encode_eq rfl (by decide),
    decode_of_encode_eq rfl (by decide),
    decode_of_encode_eq rfl (by decide),
    decode_movzWord 0 1 0x1234,
    decode_of_encode_eq rfl (by decide),
    decode_of_encode_eq rfl (by decide),
    decode_of_encode_eq rfl (by decide),
    decode_of_encode_eq rfl (by decide),
    decode_of_encode_eq rfl (by decide),
    decode_of_encode_eq rfl (by decide),
    decode_of_encode_eq rfl (by decide),
    decode_eq_noTableEntry_of_forall_ne (by decide),
    decode_conditionalWord 16 2⟩

end Sys2Proof
end

section
/-! PROOFS. The statement of spec/70_reset_and_hazards.md on the memory calls of a step. First what replaying the data
accesses of an instruction makes of the store; then the calls that a completed step reports; then the statement. -/

namespace Sys2Proof.Machine

/-! ### The data accesses of an instruction -/

/-- An instruction that stores nothing makes no `write_word` call, so its calls leave the store as it was (R41). -/
theorem replay_dataCalls_of_no_store {i : Instr} {s : State} (hstore : storedBytes s i = none) :
    s.memory.replay (dataCalls i s) = s.memory := by
  cases i with
  | stur | sturb | sturh => cases hstore
  | _ => rfl

/-- The memory an instruction answers is what its data accesses make of Current's (R47 to R52, R228). -/
theorem memory_of_exec_eq_replay {i : Instr} {s t : State} (h : exec i s = .next t) :
    t.memory = s.memory.replay (dataCalls i s) := by
  cases hstore : storedBytes s i with
  | none => rw [memory_of_exec hstore h, replay_dataCalls_of_no_store hstore]
  | some stored =>
    cases i with
    | stur | sturb | sturh => cases h; rfl
    | _ => cases hstore

/-- A doubleword access or a narrow store is two calls, a narrow load one; no other kind makes any (R228). -/
theorem length_dataCalls_le (i : Instr) (s : State) : (dataCalls i s).length ≤ 2 := by
  cases i with
  | stur | sturb | sturh | ldur => exact le_refl 2
  | ldurb | ldurh => exact one_le_two
  | _ => exact Nat.zero_le 2

theorem length_decodedCalls_le (d : Except Unrecognized Instr) (s : State) : (decodedCalls d s).length ≤ 2 := by
  cases d with
  | ok i => exact length_dataCalls_le i s
  | error => exact Nat.zero_le 2

/-! ### The calls of a completed step -/

/-- A halted machine makes no memory call (R26, decision D11). -/
theorem stepCalls_of_halted {s : State} (hhalt : s.halted = true) : stepCalls s = [] := by
  simp [stepCalls_eq, hhalt]

/-- A running machine whose step completes fetches, then makes the data accesses of the decoded word (R228). -/
theorem stepCalls_of_running_step {s t : State} (hrun : s.halted = false) (h : step s = .next t) :
    stepCalls s = .read s.programCounter :: decodedCalls (decode s.fetch) s := by
  obtain ⟨hsafe, _⟩ := stepCompletesUnlessMisaligned s
  rcases hsafe.1 ⟨t, h⟩ with hhalt | hpc
  · simp [hrun] at hhalt
  · rw [stepCalls_eq, if_pos ⟨hrun, hpc⟩]

/-- A completed step's memory is what its calls make of the memory before: the fetch and the commit change none, an
instruction answers what its data accesses make, and an unrecognized word makes none (R24, R25, R192). -/
theorem memory_of_step_eq_replay {s t : State} (h : step s = .next t) :
    t.memory = s.memory.replay (stepCalls s) := by
  cases completed_of_step h with
  | halted hhalt => rw [stepCalls_of_halted hhalt, Memory.replay]
  | executed hrun hdec hexec =>
    rw [stepCalls_of_running_step hrun h, hdec, decodedCalls, Memory.replay, commit_memory]
    exact memory_of_exec_eq_replay hexec
  | unrecognized hrun hdec =>
    rw [stepCalls_of_running_step hrun h, hdec, decodedCalls, Memory.replay, Memory.replay]
    rfl

/-! ### The statement -/

/-- Settles O35: a completed step's memory by its calls, and the calls by whether the machine is running. -/
theorem reportedCallsAreTheMemoryEffect : Obligations.ReportedCallsAreTheMemoryEffect := by
  intro s t h
  refine ⟨memory_of_step_eq_replay h, ?_, fun hrun => ?_, stepCalls_of_halted⟩
  · cases hrun : s.halted with
    | true => rw [stepCalls_of_halted hrun]; exact Nat.zero_le 3
    | false =>
      rw [stepCalls_of_running_step hrun h, List.length_cons]
      exact Nat.succ_le_succ (length_decodedCalls_le _ s)
  · rw [stepCalls_of_running_step hrun h, List.head?_cons]

end Sys2Proof.Machine
end
